-- ==== Sys2Proof/Word.lean ====
section
/-! DEFINITION. The fixed widths of the codec's values (00_scope.md R13, R17). -/

namespace Sys2Proof

/-- A 32-bit value: a command word, a region bound, an address word, a CSR (R13). -/
abbrev Word := BitVec 32

/-- A configuration byte (R61). -/
abbrev Byte := BitVec 8

/-- A permission nibble in PERM layout: bit 0 R, bit 1 W, bit 2 X, bit 3 L (R63). -/
abbrev Nibble := BitVec 4

/-- A posture: bit 0 MML, bit 1 MMWP, bit 2 RLB (R33, R76). -/
abbrev Posture := BitVec 3

end Sys2Proof
end

