-- ==== Sys2Proof/Syntax.lean ====
section
/-! DEFINITION. The eight commands of spec/opcode_table.json, one constructor a row (30_encoding.md R71). A command holds
the fields its OP uses (R60); the others are ignored (R73). START and END are ports, not fields of the word (R28). -/

namespace Sys2Proof

/-- A command word's meaning as syntax. `bank` and `entry` are the zero-extended indexes of R74 and R75. -/
inductive Instr where
  /-- OP 0, CFG_OFF (R87). -/
  | cfgOff (bank entry : Nat) (perm : Nibble)
  /-- OP 1, CFG_TOR (R90). -/
  | cfgTor (bank entry : Nat) (perm : Nibble)
  /-- OP 2, CFG_NA4 (R97). -/
  | cfgNa4 (bank entry : Nat) (perm : Nibble)
  /-- OP 3, CFG_NAPOT (R100). -/
  | cfgNapot (bank entry : Nat) (perm : Nibble)
  /-- OP 4, DECODE (R117). -/
  | decode (bank entry : Nat)
  /-- OP 5, COMMIT (R130). -/
  | commit (bank : Nat)
  /-- OP 6, READ (R135). -/
  | read (bank : Nat)
  /-- OP 7, VERIFY (R137). -/
  | verify (bank : Nat) (posture : Posture)
  deriving DecidableEq, Repr

/-- The bank a command names: every command has a BANK field (R60, R75). -/
def Instr.bank : Instr → Nat
  | .cfgOff b _ _ => b
  | .cfgTor b _ _ => b
  | .cfgNa4 b _ _ => b
  | .cfgNapot b _ _ => b
  | .decode b _ => b
  | .commit b => b
  | .read b => b
  | .verify b _ => b

/-- The entry a command names, for the five commands with an ENTRY field (R60, R74). -/
def Instr.entry? : Instr → Option Nat
  | .cfgOff _ i _ => some i
  | .cfgTor _ i _ => some i
  | .cfgNa4 _ i _ => some i
  | .cfgNapot _ i _ => some i
  | .decode _ i => some i
  | .commit _ => none
  | .read _ => none
  | .verify _ _ => none

/-- The four configure commands (R4, R84). -/
def Instr.isConfigure : Instr → Bool
  | .cfgOff _ _ _ => true
  | .cfgTor _ _ _ => true
  | .cfgNa4 _ _ _ => true
  | .cfgNapot _ _ _ => true
  | .decode _ _ => false
  | .commit _ => false
  | .read _ => false
  | .verify _ _ => false

/-- COMMIT, the one command that writes the CSR file (R130, R141). -/
def Instr.isCommit : Instr → Bool
  | .commit _ => true
  | .cfgOff _ _ _ => false
  | .cfgTor _ _ _ => false
  | .cfgNa4 _ _ _ => false
  | .cfgNapot _ _ _ => false
  | .decode _ _ => false
  | .read _ => false
  | .verify _ _ => false

end Sys2Proof
end

