-- ==== Sys2Proof/WellFormed.lean ====
section
/-! DEFINITION. Which command terms have a word: the index fields fit (30_encoding.md R60). PERM and POSTURE fit by their
types. An index beyond NUM_BANKS or N is no encoding fault: it is BadArg when the command runs (R74, R75). -/

namespace Sys2Proof

/-- BANK is a 4-bit field (R75). -/
def bankFits (b : Nat) : Bool := decide (b < 16)

/-- ENTRY is an 8-bit field (R74). -/
def entryFits (i : Nat) : Bool := decide (i < 256)

/-- A term that some command word stands for. -/
def Instr.wellFormed : Instr → Bool
  | .cfgOff b i _ => bankFits b && entryFits i
  | .cfgTor b i _ => bankFits b && entryFits i
  | .cfgNa4 b i _ => bankFits b && entryFits i
  | .cfgNapot b i _ => bankFits b && entryFits i
  | .decode b i => bankFits b && entryFits i
  | .commit b => bankFits b
  | .read b => bankFits b
  | .verify b _ => bankFits b

end Sys2Proof
end

