-- ==== Sys2Proof/Decode.lean ====
section
/-! DEFINITION. Command words (30_encoding.md R59, R60, R71, R72, R79): the decoder, total on every 32-bit word and
rejecting by name, and the encoder. -/

namespace Sys2Proof

/-- Why a word is not a command (R72). -/
inductive DecodeError where
  /-- One of bits 31:24 is 1. -/
  | reservedHighBits
  /-- Bit 19 is 1. -/
  | reservedBit19
  /-- OP is 0x8 to 0xF. -/
  | reservedOp
  deriving DecidableEq, Repr

/-- `OP`, bits 3:0 (R60). -/
def opField (w : Word) : Nat := (w.extractLsb' 0 4).toNat

/-- `ENTRY`, bits 11:4, zero-extended (R60, R74). -/
def entryField (w : Word) : Nat := (w.extractLsb' 4 8).toNat

/-- `PERM`, bits 15:12 (R60). -/
def permField (w : Word) : Nibble := w.extractLsb' 12 4

/-- `POSTURE`, bits 18:16 (R60). -/
def postureField (w : Word) : Posture := w.extractLsb' 16 3

/-- The reserved bit 19 (R60). -/
def reservedBit (w : Word) : BitVec 1 := w.extractLsb' 19 1

/-- `BANK`, bits 23:20, zero-extended (R60, R75). -/
def bankField (w : Word) : Nat := (w.extractLsb' 20 4).toNat

/-- The reserved bits 31:24 (R60). -/
def reservedHigh (w : Word) : BitVec 8 := w.extractLsb' 24 8

/-- The OP table (R71), on the fields of a word. -/
def decodeOp (w : Word) : Except DecodeError Instr :=
  match opField w with
  | 0 => .ok (.cfgOff (bankField w) (entryField w) (permField w))
  | 1 => .ok (.cfgTor (bankField w) (entryField w) (permField w))
  | 2 => .ok (.cfgNa4 (bankField w) (entryField w) (permField w))
  | 3 => .ok (.cfgNapot (bankField w) (entryField w) (permField w))
  | 4 => .ok (.decode (bankField w) (entryField w))
  | 5 => .ok (.commit (bankField w))
  | 6 => .ok (.read (bankField w))
  | 7 => .ok (.verify (bankField w) (postureField w))
  | _ => .error .reservedOp

/-- The reserved-word part of `decode_cmd` (R79). Its BANK test needs NUM_BANKS and comes after it, in the meanings. -/
def decode (w : Word) : Except DecodeError Instr :=
  if reservedHigh w ≠ 0 then .error .reservedHighBits
  else if reservedBit w ≠ 0 then .error .reservedBit19
  else decodeOp w

/-- A command word from its fields, the reserved bits 0 (R60). -/
def commandWord (bank : Nat) (posture : Posture) (perm : Nibble) (entry : Nat) (op : BitVec 4) : Word :=
  0#8 ++ BitVec.ofNat 4 bank ++ 0#1 ++ posture ++ perm ++ BitVec.ofNat 8 entry ++ op

/-- The word of a command, the fields it does not use 0 (R60, R71, R73). -/
def encode : Instr → Word
  | .cfgOff b i p => commandWord b 0 p i 0
  | .cfgTor b i p => commandWord b 0 p i 1
  | .cfgNa4 b i p => commandWord b 0 p i 2
  | .cfgNapot b i p => commandWord b 0 p i 3
  | .decode b i => commandWord b 0 0 i 4
  | .commit b => commandWord b 0 0 0 5
  | .read b => commandWord b 0 0 0 6
  | .verify b q => commandWord b q 0 0 7

/-- The bits of a word that its command reads, reserved bits and OP among them; the others are ignored (R60, R73). -/
def usedMask : Instr → Word
  | .cfgOff _ _ _ => 0xFFF8FFFF
  | .cfgTor _ _ _ => 0xFFF8FFFF
  | .cfgNa4 _ _ _ => 0xFFF8FFFF
  | .cfgNapot _ _ _ => 0xFFF8FFFF
  | .decode _ _ => 0xFFF80FFF
  | .commit _ => 0xFFF8000F
  | .read _ => 0xFFF8000F
  | .verify _ _ => 0xFFFF000F

/-- Bits 31:0 of a table row's bits are CMD; what stands above `nbits` is 0 (log 5). -/
def tableCmd (nbits w : Nat) : Word := BitVec.ofNat 32 (w % 2 ^ nbits)

/-- Bits 63:32 of a table row's bits are START (log 5). -/
def tableStart (nbits w : Nat) : Word := BitVec.ofNat 32 (w % 2 ^ nbits / 2 ^ 32)

/-- Bits 95:64 of a table row's bits are END (log 5). -/
def tableEnd (nbits w : Nat) : Word := BitVec.ofNat 32 (w % 2 ^ nbits / 2 ^ 64)

/-- The instruction the decoder reads from bits numbered as spec/opcode_table.json numbers them. -/
def decodeTableWord (nbits w : Nat) : Option Instr :=
  match decode (tableCmd nbits w) with
  | .ok i => some i
  | .error _ => none

end Sys2Proof
end

