-- ==== Sys2Proof/Config.lean ====
section
/-! DEFINITION. What an implementation fixes (the parameters of 00_scope.md R11 to R16), the shape of the CSR file that
two of them are functions of (10_state.md R31), and the free values. -/

namespace Sys2Proof

/-- The registers of the CSR file, by name (R31). -/
inductive CsrReg where
  | pmpcfg (j : Nat)
  | pmpaddr (i : Nat)
  | mseccfg
  deriving DecidableEq, Repr

/-- The contents of the CSR file (R31): N/4 configuration registers, N address registers, mseccfg. -/
structure CsrFile where
  pmpcfg : List Word
  pmpaddr : List Word
  mseccfg : Word
  deriving DecidableEq, Repr

/-- The CSR identifiers `PMPCFG_ID(j)`, `PMPADDR_ID(i)` and `MSECCFG_ID` (R15, R53). -/
structure CsrIds where
  pmpcfg : List Nat
  pmpaddr : List Nat
  mseccfg : Nat
  deriving DecidableEq, Repr

/-- Which `Legalize` and `View` the CSR file has (R16). Functions cannot stand in State, so State names the pair.
Every statement about all states is about both constructors. -/
inductive CsrBackend where
  /-- The identity pair: the spec's reference fake backend (R48, R49). -/
  | reference
  /-- The target hart's own pair: the opaque `Config.legalize` and `Config.view`, of which nothing is known. -/
  | target
  deriving DecidableEq, Repr

/-- The parameters of the block (R11 to R16), fixed for a run (R175 `ParamsFixed`). -/
structure Params where
  /-- `N`, the number of entries (R11). -/
  N : Nat
  /-- `G`, the granularity exponent (R12). -/
  G : Nat
  /-- `NUM_BANKS` (R14). -/
  numBanks : Nat
  /-- The CSR identifiers (R15). -/
  ids : CsrIds
  /-- `Legalize` and `View` (R16). -/
  backend : CsrBackend
  deriving DecidableEq, Repr

/-- The default identifiers of R53. -/
def CsrIds.default : CsrIds where
  pmpcfg := (List.range 16).map (0x3A0 + ·)
  pmpaddr := (List.range 64).map (0x3B0 + ·)
  mseccfg := 0x747

/-- The ranges of R11, R12, R14, one identifier for every register R53 numbers, and no identifier twice
("a fixed numeric identifier per register", R15). -/
abbrev Params.Wf (p : Params) : Prop :=
  4 ≤ p.N ∧ p.N ≤ 64 ∧ p.N % 4 = 0 ∧ p.G ≤ 29 ∧ 1 ≤ p.numBanks ∧ p.numBanks ≤ 16 ∧
  p.ids.pmpcfg.length = 16 ∧ p.ids.pmpaddr.length = 64 ∧
  (p.ids.mseccfg :: (p.ids.pmpcfg ++ p.ids.pmpaddr)).Nodup

/-- The reference system: N = 16 (R11), NUM_BANKS = 2 (R14), the default identifiers (R53), nothing assumed of
`Legalize` and `View` (log 2). DESIGN CHOICE: G = 0, the value the spec's test vectors use (R12 gives none; log 1). -/
def Params.standard : Params where
  N := 16
  G := 0
  numBanks := 2
  ids := CsrIds.default
  backend := .target

/-- `Legalize(id, v, csr)` of the target hart: a free value, "No rule of the block assumes anything of `Legalize`"
(R48; log 2). -/
opaque Config.legalize : Nat → Word → CsrFile → Word

/-- `View(id, csr)` of the target hart: a free value (R49; log 2). -/
opaque Config.view : Nat → CsrFile → Word

/-- Free values of the output ports (R29, R39; log 6), each applied to the counter `State.freeCount`. -/
opaque Config.freeResult : Nat → BitVec 3

/-- A free value of OUT_START (R29; log 6). -/
opaque Config.freeOutStart : Nat → Word

/-- A free value of OUT_END (R29; log 6). -/
opaque Config.freeOutEnd : Nat → Word

/-- A free value of OUT_PERM (R29; log 6). -/
opaque Config.freeOutPerm : Nat → Nibble

end Sys2Proof
end

