-- ==== Sys2Proof/Machine/State.lean ====
section
/-! DEFINITION. The state of the block, of the CSR file and of what is still to arrive from outside (10_state.md), as
plain data, and the state after reset. -/

namespace Sys2Proof.Machine

/-- The reasons a step can fault. There is none: the block "raises no trap" and "Every command ends in one step with a
RESULT" (R151, 93_implementation_defined.md). -/
inductive Fault where
  deriving DecidableEq, Repr

/-- The reasons a step can be refused. -/
inductive Refusal where
  /-- Raised by `exec` for an instruction without a meaning yet. No arm of this model raises it. Safe. -/
  | notModelled (mnemonic : String)
  deriving DecidableEq, Repr

/-- The addressing modes, the values of the A field (R62). -/
inductive Mode where
  | off
  | tor
  | na4
  | napot
  deriving DecidableEq, Repr

/-- The failure codes of R146. `Ok` is the absence of a failure. -/
inductive Failure where
  | badArg
  | badRegion
  | conflict
  | mismatch
  | error
  deriving DecidableEq, Repr

/-- An entry of a bank: its configuration byte and its address word (R22, R24). -/
structure Entry where
  cfg : Byte
  addr : Word
  deriving DecidableEq, Repr

/-- A shadow bank: the ordered array of entries (R24). -/
structure Bank where
  entries : List Entry
  deriving DecidableEq, Repr

/-- A decoded region and permission, the values of the OUT ports (R29, R77). -/
structure Decoded where
  start : Word
  stop : Word
  perm : Nibble
  deriving DecidableEq, Repr

/-- What can arrive from outside between two steps (R23, R57, R161). -/
inductive Input where
  /-- The caller issues a command: the values of CMD, START and END (R28). -/
  | command (cmd start stop : Word)
  /-- The environment sets a CSR (R57; log 4). -/
  | envWrite (r : CsrReg) (v : Word)
  /-- The block is reset (R161; log 10). -/
  | reset
  deriving DecidableEq, Repr

/-- The machine. -/
structure State where
  /-- N, G, NUM_BANKS, the CSR identifiers, `Legalize` and `View` (R11 to R16); no step writes them. -/
  params : Params
  /-- The shadow banks `S[0..NUM_BANKS-1]` (R24). -/
  banks : List Bank
  /-- The CMD port, as last sampled (R28). -/
  portCmd : Word
  /-- The START port, as last sampled (R28). -/
  portStart : Word
  /-- The END port, as last sampled (R28). -/
  portEnd : Word
  /-- The RESULT port (R29, R146). -/
  result : BitVec 3
  /-- The OUT_START port (R29). -/
  outStart : Word
  /-- The OUT_END port (R29). -/
  outEnd : Word
  /-- The OUT_PERM port (R29, R77). -/
  outPerm : Nibble
  /-- The CSR file (R31). -/
  csr : CsrFile
  /-- The commands, environment writes and resets to come, oldest first (R55, R57, R174; log 5). -/
  inputs : List Input
  /-- The CSR file's draws for the accesses to come, `true` an ACCESS_FAIL; one not listed succeeds (R47; log 3). -/
  draws : List Bool
  /-- The counter by which free values are drawn (log 6). -/
  freeCount : Nat
  deriving DecidableEq, Repr

/-- The reset value of an entry (R38). -/
def Entry.empty : Entry where
  cfg := 0
  addr := 0

/-- The empty state of a bank of `n` entries (R22, R38). -/
def Bank.empty (n : Nat) : Bank where
  entries := List.replicate n Entry.empty

/-- Every bank the empty state (R38, R175 `BanksEmpty`). -/
def emptyBanks (p : Params) : List Bank := List.replicate p.numBanks (Bank.empty p.N)

/-- A CSR file of the parameters' shape with every register 0. -/
def zeroCsrFile (p : Params) : CsrFile where
  pmpcfg := List.replicate (p.N / 4) 0
  pmpaddr := List.replicate p.N 0
  mseccfg := 0

/-- The block after reset (R161) with what the spec leaves to the launch: the parameters, `CsrStart(C0)` (R40, R175),
the unspecified output ports (R39), the caller's and the environment's inputs, the draws. -/
def State.launch (p : Params) (c0 : CsrFile) (result : BitVec 3) (out : Decoded) (inputs : List Input)
    (draws : List Bool) : State where
  params := p
  banks := emptyBanks p
  portCmd := 0
  portStart := 0
  portEnd := 0
  result := result
  outStart := out.start
  outEnd := out.stop
  outPerm := out.perm
  csr := c0
  inputs := inputs
  draws := draws
  freeCount := 0

/-- The machine right after reset: the launch of the reference system. DESIGN CHOICE: the output ports and the CSR file,
which the spec leaves unspecified, are 0 (log 7, log 8), and nothing is to arrive (log 3, log 5). -/
def State.reset : State :=
  State.launch Params.standard (zeroCsrFile Params.standard) 0 ⟨0, 0, 0⟩ [] []

end Sys2Proof.Machine
end

