-- ==== Sys2Proof/Machine/Operands.lean ====
section
/-! DEFINITION. Operands and encodings of 30_encoding.md: the configuration byte, permissions, modes, the region arithmetic of
address words, and the lanes of a configuration register (20_memory.md R50). -/

namespace Sys2Proof.Machine

/-- The A field of a mode (R62). -/
def Mode.bits : Mode → BitVec 2
  | .off => 0
  | .tor => 1
  | .na4 => 2
  | .napot => 3

/-- The mode of an A field; no value is reserved (R62). -/
def Mode.ofBits (a : BitVec 2) : Mode :=
  match a.toNat with
  | 0 => .off
  | 1 => .tor
  | 2 => .na4
  | _ => .napot

/-- The mode of a configuration byte, its bits 4:3 (R62). -/
def cfgMode (c : Byte) : Mode := Mode.ofBits (c.extractLsb' 3 2)

/-- The reserved permissions, R = 0 and W = 1 (R63, R82, R85). -/
def permReserved (p : Nibble) : Bool := !p.getLsbD 0 && p.getLsbD 1

/-- `cfgbyte(p, m)` (R65): L at bit 7, bits 6:5 zero, A at 4:3, X, W, R at 2, 1, 0. -/
def cfgByte (p : Nibble) (m : Mode) : Byte :=
  p.extractLsb' 3 1 ++ 0#2 ++ m.bits ++ p.extractLsb' 0 3

/-- `perm_of(c)` (R66): L, X, W, R of a configuration byte in PERM layout. -/
def permOf (c : Byte) : Nibble := c.extractLsb' 7 1 ++ c.extractLsb' 0 3

/-- `cfg_valid(c)` (R66): bits 6:5 zero and not R = 0 with W = 1. -/
def cfgValid (c : Byte) : Bool := decide (c.extractLsb' 5 2 = 0) && !(!c.getLsbD 0 && c.getLsbD 1)

/-- The mode of an entry (R62). -/
def Entry.mode (e : Entry) : Mode := cfgMode e.cfg

/-- The address word of a byte address (R44). -/
def addrWord (a : Word) : Word := a >>> 2

/-- The byte address a word denotes, an exact integer (R44, R117). -/
def byteAddr (a : Word) : Nat := a.toNat * 4

/-- The grain of the hardware, `2^(2+G)` bytes (R12). -/
def grain (p : Params) : Nat := 2 ^ (2 + p.G)

/-- The length `end - start` of a region (R22); a region that reaches it has `end >= start` (R84). -/
def regionLen (s e : Word) : Nat := e.toNat - s.toNat

/-- `is_pow2(x)` (R18). -/
def isPow2 (x : Nat) : Bool := decide (x ≠ 0 ∧ x &&& (x - 1) = 0)

/-- `k = log2(length) - 3`, the trailing ones of a NAPOT word (R69, R100). -/
def napotK (s e : Word) : Nat := Nat.log2 (regionLen s e) - 3

/-- The low `k` bits set, `(1 << k) - 1`. -/
def lowOnes (k : Nat) : Word := BitVec.ofNat 32 (2 ^ k - 1)

/-- The NAPOT address word of a region, `(start >> 2) | ((1 << k) - 1)` (R69, R103). -/
def napotWord (s e : Word) : Word := addrWord s ||| lowOnes (napotK s e)

/-- The consecutive one bits of `n` from bit 0, at most `fuel` of them. -/
def trailingOnes : Nat → Nat → Nat
  | 0, _ => 0
  | fuel + 1, n => if n % 2 = 1 then trailingOnes fuel (n / 2) + 1 else 0

/-- `ctz1(a)`, 0 to 32 (R18). -/
def ctz1 (a : Word) : Nat := trailingOnes 32 a.toNat

/-- The start a NAPOT word denotes, `(a & ~((1 << k) - 1)) << 2` with `k = ctz1(a)`, an exact integer (R70). -/
def napotStart (a : Word) : Nat := byteAddr (a &&& ~~~ lowOnes (ctz1 a))

/-- The length a NAPOT word denotes, `2^(k+3)` (R70). -/
def napotLen (a : Word) : Nat := 2 ^ (ctz1 a + 3)

/-- `unpack(w, k)`, bits `8k+7:8k` of a configuration register (R50). -/
def unpack (w : Word) (k : Nat) : Byte := w.extractLsb' (8 * k) 8

/-- Four configuration bytes as a configuration register, the first in the lowest lane (R50). -/
def packBytes (c0 c1 c2 c3 : Byte) : Word := c3 ++ c2 ++ c1 ++ c0

end Sys2Proof.Machine
end

