-- ==== Sys2Proof/Machine/Flags.lean ====
section
/-! DEFINITION. The block has no condition flags; RESULT is its only status output (10_state.md R30). This file holds the
result codes and the two ways a command ends. -/

namespace Sys2Proof.Machine

/-- RESULT when a command returns Ok (R146). -/
def okBits : BitVec 3 := 0

/-- RESULT when a command fails (R146). -/
def Failure.bits : Failure → BitVec 3
  | .badArg => 1
  | .badRegion => 2
  | .conflict => 3
  | .mismatch => 4
  | .error => 5

/-- RESULT for what the checks of a command found: `none` is Ok. -/
def resultBits : Option Failure → BitVec 3
  | none => okBits
  | some f => f.bits

/-- The one operation by which a command other than a successful DECODE ends: RESULT is written and the OUT ports hold
unspecified values (R20, R29, R150), three free values (log 6). -/
def State.finish (s : State) (f : Option Failure) : State :=
  { s with
    result := resultBits f
    outStart := Config.freeOutStart s.freeCount
    outEnd := Config.freeOutEnd s.freeCount
    outPerm := Config.freeOutPerm s.freeCount
    freeCount := s.freeCount + 1 }

/-- The end of a DECODE that returns Ok: it writes the OUT ports (R29, R117). -/
def State.finishDecode (s : State) (d : Decoded) : State :=
  { s with result := okBits, outStart := d.start, outEnd := d.stop, outPerm := d.perm }

end Sys2Proof.Machine
end

