-- ==== Sys2Proof/Machine/Ops.lean ====
section
/-! DEFINITION. The named operations over the banks, the ordered checks of a command, the CSR port (20_memory.md R46 to R49),
and what happens between two commands. -/

namespace Sys2Proof.Machine

/-! ### Banks -/

/-- Entry `i` of a bank. An index past the bank's end reads as the empty entry (log 11). -/
def Bank.entry (bk : Bank) (i : Nat) : Entry := bk.entries.getD i Entry.empty

/-- `S[b].addr[i]` (R19). -/
def Bank.addr (bk : Bank) (i : Nat) : Word := (bk.entry i).addr

/-- `S[b].cfg[i]` (R19). -/
def Bank.cfg (bk : Bank) (i : Nat) : Byte := (bk.entry i).cfg

/-- `mode(b, i)` (R19, R62). -/
def Bank.mode (bk : Bank) (i : Nat) : Mode := (bk.entry i).mode

/-- Both words of entry `i` are written. -/
def Bank.setEntry (bk : Bank) (i : Nat) (e : Entry) : Bank := { entries := bk.entries.set i e }

/-- Only the address word of entry `i` is written (R94). -/
def Bank.setAddr (bk : Bank) (i : Nat) (a : Word) : Bank := bk.setEntry i { cfg := bk.cfg i, addr := a }

/-- `S[b]` (R19). A bank that does not exist reads as one without entries (log 11). -/
def State.bank (s : State) (b : Nat) : Bank := s.banks.getD b { entries := [] }

/-- `S[b] <- bk`. -/
def State.setBank (s : State) (b : Nat) (bk : Bank) : State := { s with banks := s.banks.set b bk }

/-- `pack(b, j)` (R50). -/
def Bank.pack (bk : Bank) (j : Nat) : Word :=
  packBytes (bk.cfg (4 * j)) (bk.cfg (4 * j + 1)) (bk.cfg (4 * j + 2)) (bk.cfg (4 * j + 3))

/-! ### Checks -/

/-- A check: the condition under which it fails, and the code it raises. -/
abbrev Check := Prod Bool Failure

/-- Checks in order; the first that fails is reported and no later one is made (R20, R149). -/
def firstFailure : List Check → Option Failure
  | [] => none
  | (bad, f) :: rest => if bad then some f else firstFailure rest

/-- `BANK >= NUM_BANKS` is BadArg, before every test of the operation (R75, R79, R148). -/
def bankCheck (p : Params) (b : Nat) : Check := (decide (p.numBanks ≤ b), .badArg)

/-- The end of a command that may write bank `b`: its staged bank is applied only when no check failed (R20, R150). -/
def State.finishWrite (s : State) (b : Nat) (checks : List Check) (staged : Bank) : State :=
  match firstFailure checks with
  | none => (s.setBank b staged).finish none
  | some f => s.finish (some f)

/-! ### The CSR file and its port -/

/-- The identifier of a register (R15, R53). -/
def Params.idOf (p : Params) : CsrReg → Nat
  | .pmpcfg j => p.ids.pmpcfg.getD j 0
  | .pmpaddr i => p.ids.pmpaddr.getD i 0
  | .mseccfg => p.ids.mseccfg

/-- The contents of a register (R31). -/
def csrGet (c : CsrFile) : CsrReg → Word
  | .pmpcfg j => c.pmpcfg.getD j 0
  | .pmpaddr i => c.pmpaddr.getD i 0
  | .mseccfg => c.mseccfg

/-- A register's contents replaced. A register that does not exist takes no value (log 11). -/
def csrSet (c : CsrFile) (r : CsrReg) (v : Word) : CsrFile :=
  match r with
  | .pmpcfg j => { c with pmpcfg := c.pmpcfg.set j v }
  | .pmpaddr i => { c with pmpaddr := c.pmpaddr.set i v }
  | .mseccfg => { c with mseccfg := v }

/-- `Legalize(id, v, csr)` (R48). -/
def legalize (p : Params) (r : CsrReg) (v : Word) (c : CsrFile) : Word :=
  match p.backend with
  | .reference => v
  | .target => Config.legalize (Params.idOf p r) v c

/-- `View(id, csr)` (R49). -/
def view (p : Params) (r : CsrReg) (c : CsrFile) : Word :=
  match p.backend with
  | .reference => csrGet c r
  | .target => Config.view (Params.idOf p r) c

/-- Whether the next access fails, by the CSR file's draw (R47; log 3). -/
def drawFails (ds : List Bool) : Bool := ds.headD false

/-- What a run of CSR writes leaves: the CSR file, the draws not used, and whether an access failed. -/
structure WriteRun where
  csr : CsrFile
  draws : List Bool
  failed : Bool
  deriving DecidableEq, Repr

/-- `CsrWrite`s one after another, stopping at the first that fails; a failed one changes no register, and the ones before
it stay done (R46, R47, R48, R132). -/
def csrWrites (p : Params) : List (CsrReg × Word) → List Bool → CsrFile → WriteRun
  | [], ds, c => { csr := c, draws := ds, failed := false }
  | (r, v) :: ws, ds, c =>
    if drawFails ds then { csr := c, draws := ds.tail, failed := true }
    else csrWrites p ws ds.tail (csrSet c r (legalize p r v c))

/-- `CsrRead`s one after another, stopping at the first that fails (`none`); with the draws not used (R46, R47, R135). -/
def csrReads (p : Params) : List CsrReg → List Bool → CsrFile → Option (List Word) × List Bool
  | [], ds, _ => (some [], ds)
  | r :: rs, ds, c =>
    if drawFails ds then (none, ds.tail)
    else
      match csrReads p rs ds.tail c with
      | (some vs, ds') => (some (view p r c :: vs), ds')
      | (none, ds') => (none, ds')

/-- All the `CsrRead`s, made whether or not one fails, `none` an ACCESS_FAIL (R137, R138). -/
def csrReadAll (p : Params) : List CsrReg → List Bool → CsrFile → List (Option Word)
  | [], _, _ => []
  | r :: rs, ds, c => (if drawFails ds then none else some (view p r c)) :: csrReadAll p rs ds.tail c

/-- The CSR file and the remaining draws after a command's accesses. -/
def State.setCsr (s : State) (c : CsrFile) (ds : List Bool) : State := { s with csr := c, draws := ds }

/-- The remaining draws after a command's reads. -/
def State.setDraws (s : State) (ds : List Bool) : State := { s with draws := ds }

/-- `pmpaddr[0..N-1]`, ascending (R130, R135, R137). -/
def addrRegs (p : Params) : List CsrReg := (List.range p.N).map .pmpaddr

/-- `pmpcfg[0..N/4-1]`, ascending (R130, R135, R137). -/
def cfgRegs (p : Params) : List CsrReg := (List.range (p.N / 4)).map .pmpcfg

/-! ### Between two commands -/

/-- The inputs still to come. -/
def State.setInputs (s : State) (ins : List Input) : State := { s with inputs := ins }

/-- The input ports are sampled when a command is issued (R28). -/
def State.samplePorts (s : State) (cmd start stop : Word) : State :=
  { s with portCmd := cmd, portStart := start, portEnd := stop }

/-- The environment sets a CSR between two commands (R57; log 4). -/
def State.envWrite (s : State) (r : CsrReg) (v : Word) : State := { s with csr := csrSet s.csr r v }

/-- Reset (R38, R39, R161): every bank the empty state, the output ports unspecified (free values, log 6). The CSR file and
what is still to arrive are not the block's (log 10). -/
def State.resetBlock (s : State) : State :=
  { s with
    banks := emptyBanks s.params
    result := Config.freeResult s.freeCount
    outStart := Config.freeOutStart s.freeCount
    outEnd := Config.freeOutEnd s.freeCount
    outPerm := Config.freeOutPerm s.freeCount
    freeCount := s.freeCount + 1 }

/-- A word that is no command ends with Error and changes no bank and no CSR (R72, R79; log 12). -/
def State.rejectWord (s : State) : State := s.finish (some .error)

end Sys2Proof.Machine
end

