-- ==== Sys2Proof/Machine/Decoder.lean ====
section
/-! DEFINITION. The Decoder (42_decoder.md). Its arithmetic is on exact integers (R117). -/

namespace Sys2Proof.Machine

/-- The base word of a TOR entry: the word of the entry below, or 0 for entry 0 (R117, R122). -/
def torBase (bk : Bank) (i : Nat) : Word := if i = 0 then 0 else bk.addr (i - 1)

/-- The entry below a TOR entry is in mode NA4 or NAPOT (R123). -/
def torChainBroken (bk : Bank) (i : Nat) : Bool :=
  decide (i ≠ 0 ∧ bk.mode (i - 1) ≠ .off ∧ bk.mode (i - 1) ≠ .tor)

/-- The bounds an entry's words denote, `none` where DECODE answers Error before its final test (R121 to R125). -/
def entryBounds (bk : Bank) (i : Nat) : Option (Nat × Nat) :=
  let a := bk.addr i
  match bk.mode i with
  | .off => some (byteAddr a, byteAddr a)
  | .tor =>
    if torChainBroken bk i then none
    else if byteAddr a < byteAddr (torBase bk i) then none
    else some (byteAddr (torBase bk i), byteAddr a)
  | .na4 => some (byteAddr a, byteAddr a + 4)
  | .napot => if 28 < ctz1 a then none else some (napotStart a, napotStart a + napotLen a)

/-- A bound that is a u32 value (R126). -/
def boundFits (x : Nat) : Bool := decide (x ≤ 0xFFFFFFFF)

/-- DECODE of entry `i` of a bank (R117). -/
def decodeEntry (p : Params) (bk : Bank) (i : Nat) : Except Failure Decoded :=
  if p.N ≤ i then .error .badArg
  else if !cfgValid (bk.cfg i) then .error .error
  else
    match entryBounds bk i with
    | none => .error .error
    | some (lo, hi) =>
      if boundFits lo && boundFits hi then
        .ok { start := BitVec.ofNat 32 lo, stop := BitVec.ofNat 32 hi, perm := permOf (bk.cfg i) }
      else .error .error

/-- The state DECODE leaves (R117, R127). -/
def State.decoded (s : State) (b i : Nat) : State :=
  match firstFailure [bankCheck s.params b] with
  | some f => s.finish (some f)
  | none =>
    match decodeEntry s.params (s.bank b) i with
    | .ok d => s.finishDecode d
    | .error f => s.finish (some f)

/-- DECODE (R117). -/
def execDecode (b i : Nat) (s : State) : Host.Outcome State Fault Refusal := .next (s.decoded b i)

end Sys2Proof.Machine
end

