-- ==== Sys2Proof/Machine/Checker.lean ====
section
/-! DEFINITION. The Conflict & Validity Checker (41_checker.md) and the argument checks all configure commands share
(40_encoder.md R84). Each condition is true when the command fails. -/

namespace Sys2Proof.Machine

/-- `cfg_common()` (R84, R85), in its order. -/
def cfgCommon (p : Params) (i : Nat) (perm : Nibble) (s e : Word) : List Check :=
  [(decide (p.N ≤ i), .badArg), (decide (e.toNat < s.toNat), .badArg), (permReserved perm, .badArg)]

/-- `check_base_holder(b, i, a)` (R107): entry i + 1 is TOR and the word `a` would change its base. -/
def baseHolderConflict (p : Params) (bk : Bank) (i : Nat) (a : Word) : Bool :=
  decide (i + 1 < p.N ∧ bk.mode (i + 1) = .tor ∧ bk.addr i ≠ a)

/-- `check_na_slot(b, i)` (R109): entry i + 1 is TOR. -/
def naSlotConflict (p : Params) (bk : Bank) (i : Nat) : Bool :=
  decide (i + 1 < p.N ∧ bk.mode (i + 1) = .tor)

/-- The TOR chain checks on the entry below (R91, R93, R95). -/
def torChainConflict (bk : Bank) (i : Nat) (s : Word) : Bool :=
  if i = 0 then decide (s ≠ 0)
  else
    match bk.mode (i - 1) with
    | .off => false
    | .tor => decide (bk.addr (i - 1) ≠ addrWord s)
    | .na4 => true
    | .napot => true

/-- TOR bounds off the grain (R92). -/
def torMisaligned (p : Params) (s e : Word) : Bool :=
  decide (s.toNat % grain p ≠ 0 ∨ e.toNat % grain p ≠ 0)

/-- NAPOT size (R101). -/
def napotBadSize (s e : Word) : Bool := decide (regionLen s e < 8) || !isPow2 (regionLen s e)

/-- NAPOT alignment to the length (R101). -/
def napotMisaligned (s e : Word) : Bool := decide (s.toNat % regionLen s e ≠ 0)

/-- NAPOT below the grain (R102). -/
def napotBelowGrain (p : Params) (s e : Word) : Bool :=
  decide (0 < p.G ∧ (s.toNat % grain p ≠ 0 ∨ regionLen s e < grain p))

end Sys2Proof.Machine
end

