-- ==== Sys2Proof/Machine/Encoder.lean ====
section
/-! DEFINITION. The four configure commands (40_encoder.md). Each is the list of its checks, in the order of its pseudocode,
and the bank it stages. -/

namespace Sys2Proof.Machine

/-! ### CFG_OFF -/

/-- The checks of CFG_OFF (R87). -/
def cfgOffChecks (p : Params) (bk : Bank) (i : Nat) (perm : Nibble) (s e : Word) : List Check :=
  cfgCommon p i perm s e ++
  [(decide (s ≠ e), .badRegion),
   (baseHolderConflict p bk i (addrWord s), .conflict)]

/-- The bank CFG_OFF stages (R87). -/
def cfgOffBank (bk : Bank) (i : Nat) (perm : Nibble) (s : Word) : Bank :=
  bk.setEntry i { cfg := cfgByte perm .off, addr := addrWord s }

/-- CFG_OFF (R87). -/
def execCfgOff (b i : Nat) (perm : Nibble) (s : State) : Host.Outcome State Fault Refusal :=
  .next (s.finishWrite b
    (bankCheck s.params b :: cfgOffChecks s.params (s.bank b) i perm s.portStart s.portEnd)
    (cfgOffBank (s.bank b) i perm s.portStart))

/-! ### CFG_TOR -/

/-- The checks of CFG_TOR (R90). -/
def cfgTorChecks (p : Params) (bk : Bank) (i : Nat) (perm : Nibble) (s e : Word) : List Check :=
  cfgCommon p i perm s e ++
  [(torMisaligned p s e, .badRegion),
   (torChainConflict bk i s, .conflict),
   (baseHolderConflict p bk i (addrWord e), .conflict)]

/-- An OFF entry below takes the base word; its configuration byte stays (R94). -/
def torBaseBank (bk : Bank) (i : Nat) (s : Word) : Bank :=
  if 0 < i ∧ bk.mode (i - 1) = .off then bk.setAddr (i - 1) (addrWord s) else bk

/-- The bank CFG_TOR stages (R90, R94). -/
def cfgTorBank (bk : Bank) (i : Nat) (perm : Nibble) (s e : Word) : Bank :=
  (torBaseBank bk i s).setEntry i { cfg := cfgByte perm .tor, addr := addrWord e }

/-- CFG_TOR (R90). -/
def execCfgTor (b i : Nat) (perm : Nibble) (s : State) : Host.Outcome State Fault Refusal :=
  .next (s.finishWrite b
    (bankCheck s.params b :: cfgTorChecks s.params (s.bank b) i perm s.portStart s.portEnd)
    (cfgTorBank (s.bank b) i perm s.portStart s.portEnd))

/-! ### CFG_NA4 -/

/-- The checks of CFG_NA4 (R97, R98). -/
def cfgNa4Checks (p : Params) (bk : Bank) (i : Nat) (perm : Nibble) (s e : Word) : List Check :=
  cfgCommon p i perm s e ++
  [(decide (p.G ≠ 0), .badRegion),
   (decide (regionLen s e ≠ 4), .badRegion),
   (decide (s.toNat % 4 ≠ 0), .badRegion),
   (naSlotConflict p bk i, .conflict)]

/-- The bank CFG_NA4 stages (R97). -/
def cfgNa4Bank (bk : Bank) (i : Nat) (perm : Nibble) (s : Word) : Bank :=
  bk.setEntry i { cfg := cfgByte perm .na4, addr := addrWord s }

/-- CFG_NA4 (R97). -/
def execCfgNa4 (b i : Nat) (perm : Nibble) (s : State) : Host.Outcome State Fault Refusal :=
  .next (s.finishWrite b
    (bankCheck s.params b :: cfgNa4Checks s.params (s.bank b) i perm s.portStart s.portEnd)
    (cfgNa4Bank (s.bank b) i perm s.portStart))

/-! ### CFG_NAPOT -/

/-- The checks of CFG_NAPOT (R100, R101, R102). -/
def cfgNapotChecks (p : Params) (bk : Bank) (i : Nat) (perm : Nibble) (s e : Word) : List Check :=
  cfgCommon p i perm s e ++
  [(napotBadSize s e, .badRegion),
   (napotMisaligned s e, .badRegion),
   (napotBelowGrain p s e, .badRegion),
   (naSlotConflict p bk i, .conflict)]

/-- The bank CFG_NAPOT stages (R100). -/
def cfgNapotBank (bk : Bank) (i : Nat) (perm : Nibble) (s e : Word) : Bank :=
  bk.setEntry i { cfg := cfgByte perm .napot, addr := napotWord s e }

/-- CFG_NAPOT (R100). -/
def execCfgNapot (b i : Nat) (perm : Nibble) (s : State) : Host.Outcome State Fault Refusal :=
  .next (s.finishWrite b
    (bankCheck s.params b :: cfgNapotChecks s.params (s.bank b) i perm s.portStart s.portEnd)
    (cfgNapotBank (s.bank b) i perm s.portStart s.portEnd))

end Sys2Proof.Machine
end

