-- ==== Sys2Proof/Machine/Synchronizer.lean ====
section
/-! DEFINITION. The Register Synchronizer (43_synchronizer.md): COMMIT, READ and VERIFY. -/

namespace Sys2Proof.Machine

/-! ### COMMIT -/

/-- The writes of COMMIT in their order: address words ascending, then packed configuration registers ascending
(R130, R131). -/
def commitWrites (p : Params) (bk : Bank) : List (CsrReg × Word) :=
  (List.range p.N).map (fun i => (.pmpaddr i, bk.addr i)) ++
  (List.range (p.N / 4)).map (fun j => (.pmpcfg j, bk.pack j))

/-- What COMMIT leaves of the CSR file (R130, R132). -/
def State.commitRun (s : State) (b : Nat) : WriteRun :=
  csrWrites s.params (commitWrites s.params (s.bank b)) s.draws s.csr

/-- The state COMMIT leaves (R130, R132, R133). -/
def State.committed (s : State) (b : Nat) : State :=
  match firstFailure [bankCheck s.params b] with
  | some f => s.finish (some f)
  | none =>
    (s.setCsr (s.commitRun b).csr (s.commitRun b).draws).finish
      (if (s.commitRun b).failed then some .error else none)

/-- COMMIT (R130). -/
def execCommit (b : Nat) (s : State) : Host.Outcome State Fault Refusal := .next (s.committed b)

/-! ### READ -/

/-- The registers READ and VERIFY read of the two families, in their order (R135, R137). -/
def bankRegs (p : Params) : List CsrReg := addrRegs p ++ cfgRegs p

/-- Entry `i` of the bank that the words of `bankRegs` denote (R50, R135). -/
def entryOfWords (n : Nat) (ws : List Word) (i : Nat) : Entry where
  cfg := unpack (ws.getD (n + i / 4) 0) (i % 4)
  addr := ws.getD i 0

/-- The temporary bank `T` of READ (R135). -/
def bankOfWords (n : Nat) (ws : List Word) : Bank where
  entries := (List.range n).map (entryOfWords n ws)

/-- The reads of READ (R135). -/
def State.readRun (s : State) : Option (List Word) × List Bool :=
  csrReads s.params (bankRegs s.params) s.draws s.csr

/-- The state READ leaves (R135, R136). -/
def State.readInto (s : State) (b : Nat) : State :=
  match firstFailure [bankCheck s.params b] with
  | some f => s.finish (some f)
  | none =>
    match s.readRun with
    | (some ws, ds) => ((s.setDraws ds).setBank b (bankOfWords s.params.N ws)).finish none
    | (none, ds) => (s.setDraws ds).finish (some .error)

/-- READ (R135). -/
def execRead (b : Nat) (s : State) : Host.Outcome State Fault Refusal := .next (s.readInto b)

/-! ### VERIFY -/

/-- The registers VERIFY reads (R137). -/
def verifyRegs (p : Params) : List CsrReg := bankRegs p ++ [.mseccfg]

/-- The reads of VERIFY (R137, R138). -/
def State.verifyReads (s : State) : List (Option Word) :=
  csrReadAll s.params (verifyRegs s.params) s.draws s.csr

/-- Entry `i` as read equals the bank's, all 8 bits of the byte and all 32 of the word (R139). -/
def entryMatches (n : Nat) (ws : List Word) (bk : Bank) (i : Nat) : Bool :=
  decide (entryOfWords n ws i = bk.entry i)

/-- mseccfg bits 2:0 as read equal the expected posture (R140). -/
def postureMatches (n : Nat) (ws : List Word) (q : Posture) : Bool :=
  decide ((ws.getD (n + n / 4) 0).extractLsb' 0 3 = q)

/-- The checks of VERIFY after the bank test: Error for a failed read before any Mismatch (R137, R138, R139, R140). -/
def verifyChecks (n : Nat) (reads : List (Option Word)) (bk : Bank) (q : Posture) : List Check :=
  let ws := reads.map (·.getD 0)
  [(reads.any (·.isNone), .error),
   (!(List.range n).all (entryMatches n ws bk), .mismatch),
   (!postureMatches n ws q, .mismatch)]

/-- The state VERIFY leaves (R137, R141). -/
def State.verified (s : State) (b : Nat) (q : Posture) : State :=
  match firstFailure [bankCheck s.params b] with
  | some f => s.finish (some f)
  | none =>
    (s.setDraws (s.draws.drop (verifyRegs s.params).length)).finish
      (firstFailure (verifyChecks s.params.N s.verifyReads (s.bank b) q))

/-- VERIFY (R137). -/
def execVerify (b : Nat) (q : Posture) (s : State) : Host.Outcome State Fault Refusal := .next (s.verified b q)

end Sys2Proof.Machine
end

