-- ==== Sys2Proof/Machine/Dispatch.lean ====
section
/-! DEFINITION. One arm for each constructor of Instr (30_encoding.md R71, R79). -/

namespace Sys2Proof.Machine

def exec (i : Instr) (s : State) : Host.Outcome State Fault Refusal :=
  match i with
  | .cfgOff b e p => Sys2Proof.Machine.execCfgOff b e p s
  | .cfgTor b e p => Sys2Proof.Machine.execCfgTor b e p s
  | .cfgNa4 b e p => Sys2Proof.Machine.execCfgNa4 b e p s
  | .cfgNapot b e p => Sys2Proof.Machine.execCfgNapot b e p s
  | .decode b e => Sys2Proof.Machine.execDecode b e s
  | .commit b => Sys2Proof.Machine.execCommit b s
  | .read b => Sys2Proof.Machine.execRead b s
  | .verify b q => Sys2Proof.Machine.execVerify b q s

end Sys2Proof.Machine
end

