-- ==== Sys2Proof/Machine/Step.lean ====
section
/-! DEFINITION. One step: the next input is taken and, for a command, run to completion (20_memory.md R55, R57). -/

namespace Sys2Proof.Machine

/-- A command on the sampled CMD port: decoded and executed, or rejected (R79). -/
def runCommand (s : State) : Host.Outcome State Fault Refusal :=
  match decode s.portCmd with
  | .ok i => exec i s
  | .error _ => .next s.rejectWord

/-- One step. With nothing to take, the block waits (R161). -/
def step (s : State) : Host.Outcome State Fault Refusal :=
  match s.inputs with
  | [] => .next s
  | .command cmd start stop :: rest => runCommand ((s.setInputs rest).samplePorts cmd start stop)
  | .envWrite r v :: rest => .next ((s.setInputs rest).envWrite r v)
  | .reset :: rest => .next (s.setInputs rest).resetBlock

/-- The command of a table row's bits as the next input (log 5). -/
def State.withFetchWord (s : State) (nbits w : Nat) : State :=
  s.setInputs (.command (tableCmd nbits w) (tableStart nbits w) (tableEnd nbits w) :: s.inputs)

end Sys2Proof.Machine
end

