-- ==== Sys2Proof/Safety.lean ====
section
/-! DEFINITION. The predicates that claims use: the shape of a state, the well-formedness of a bank, a bank that decodes, a CSR
file that holds a bank, and what a sequence of configure commands can reach. -/

namespace Sys2Proof.Machine

/-- The parameters are in their ranges and every table has the size they give it: NUM_BANKS banks of N entries, N/4
configuration registers, N address registers (R11, R14, R24, R31). -/
abbrev State.ShapeOk (s : State) : Prop :=
  s.params.Wf ∧ s.banks.length = s.params.numBanks ∧
  (∀ bk ∈ s.banks, bk.entries.length = s.params.N) ∧
  s.csr.pmpcfg.length = s.params.N / 4 ∧ s.csr.pmpaddr.length = s.params.N

/-- `WF(b)` (R110): below a TOR entry stands an OFF or a TOR entry. -/
def Bank.Wf (n : Nat) (bk : Bank) : Prop :=
  ∀ j, 1 ≤ j → j < n → bk.mode j = .tor → bk.mode (j - 1) = .off ∨ bk.mode (j - 1) = .tor

/-- DECODE of every entry of the bank returns Ok (R119, R122, R123, R126). -/
def Bank.AllDecode (p : Params) (bk : Bank) : Prop :=
  ∀ i, i < p.N → ∃ d, decodeEntry p bk i = .ok d

/-- The CSR file is bit-for-bit the bank (R134, R139). -/
def CsrHolds (p : Params) (c : CsrFile) (bk : Bank) : Prop :=
  ∀ i, i < p.N →
    csrGet c (.pmpaddr i) = bk.addr i ∧ unpack (csrGet c (.pmpcfg (i / 4))) (i % 4) = bk.cfg i

/-- The parameters, the CSR file, its draws, the inputs to come and the sampled ports are the same. -/
def SameOutside (s t : State) : Prop :=
  t.params = s.params ∧ t.csr = s.csr ∧ t.draws = s.draws ∧ t.inputs = s.inputs ∧
  t.portCmd = s.portCmd ∧ t.portStart = s.portStart ∧ t.portEnd = s.portEnd

/-- Every bank but `b` is the same, and there are as many banks. -/
def SameOtherBanks (b : Nat) (s t : State) : Prop :=
  t.banks.length = s.banks.length ∧ ∀ c, c ≠ b → t.bank c = s.bank c

/-- Every entry of bank `b` but those listed is the same. -/
def SameOtherEntries (b : Nat) (is : List Nat) (s t : State) : Prop :=
  ∀ j, j ∉ is → (t.bank b).entry j = (s.bank b).entry j

/-- A statement made of each of the four configure commands, as functions of bank, entry and permission. -/
def ForEachConfigure (P : (Nat → Nat → Nibble → Instr) → Prop) : Prop :=
  P .cfgOff ∧ P .cfgTor ∧ P .cfgNa4 ∧ P .cfgNapot

/-- One of the next `n` CSR accesses fails (R47). -/
def SomeAccessFails (s : State) (n : Nat) : Prop := ∃ k, k < n ∧ s.draws.getD k false = true

/-- The accesses READ makes, and COMMIT when none fails: N address and N/4 configuration registers (R130, R135). -/
def bankAccesses (p : Params) : Nat := p.N + p.N / 4

/-- The CSR file after writes that all succeed, one after another, each value legalized against the file so far (R48). -/
def csrAfter (p : Params) (c : CsrFile) (ws : List (CsrReg × Word)) : CsrFile :=
  ws.foldl (fun c w => csrSet c w.1 (legalize p w.1 w.2 c)) c

/-- What the CSR file shows through `View` is bit-for-bit the bank (R139, R141). -/
def CsrShows (p : Params) (c : CsrFile) (bk : Bank) : Prop :=
  ∀ i, i < p.N →
    view p (.pmpaddr i) c = bk.addr i ∧ unpack (view p (.pmpcfg (i / 4)) c) (i % 4) = bk.cfg i

/-- Bits 2:0 of mseccfg as shown are the posture `q` (R140). -/
def PostureShows (p : Params) (c : CsrFile) (q : Posture) : Prop :=
  (view p .mseccfg c).extractLsb' 0 3 = q

/-- The L, R, W and X bits of a permission are bits 7, 0, 1 and 2 of a configuration byte (R120). -/
def PermBitsOf (p : Nibble) (c : Byte) : Prop :=
  p.getLsbD 3 = c.getLsbD 7 ∧ p.getLsbD 0 = c.getLsbD 0 ∧ p.getLsbD 1 = c.getLsbD 1 ∧ p.getLsbD 2 = c.getLsbD 2

/-- A configuration byte with bits 6:5 not zero, or with R = 0 and W = 1 (R119). -/
def CfgByteBad (c : Byte) : Prop :=
  c.getLsbD 5 = true ∨ c.getLsbD 6 = true ∨ (c.getLsbD 0 = false ∧ c.getLsbD 1 = true)

/-- The changes by a configure command that `check_base_holder` stops (R107). -/
def ChangesTorBase (s : State) (b i : Nat) (a : Word) : Prop :=
  i + 1 < s.params.N ∧ (s.bank b).mode (i + 1) = .tor ∧ (s.bank b).addr i ≠ a

/-- The entry above is TOR (R109). -/
def BelowTor (s : State) (b i : Nat) : Prop := i + 1 < s.params.N ∧ (s.bank b).mode (i + 1) = .tor

/-- The entry below cannot hold the base `start >> 2` of a TOR range (R91, R93, R95). -/
def BaseRefused (s : State) (b i : Nat) (start : Word) : Prop :=
  (i = 0 ∧ start ≠ 0) ∨
  (0 < i ∧ (s.bank b).mode (i - 1) = .tor ∧ (s.bank b).addr (i - 1) ≠ start >>> 2) ∨
  (0 < i ∧ ((s.bank b).mode (i - 1) = .na4 ∨ (s.bank b).mode (i - 1) = .napot))

/-- A cause of BadArg that the four configure commands share (R74, R75, R84, R85). -/
def BadArgCause (s : State) (b i : Nat) (perm : Nibble) : Prop :=
  s.params.numBanks ≤ b ∨ s.params.N ≤ i ∨ s.portEnd.toNat < s.portStart.toNat ∨
  perm = 0x2 ∨ perm = 0x6 ∨ perm = 0xA ∨ perm = 0xE

/-- A NAPOT region the hardware can hold (R101, R102). -/
def NapotRegion (p : Params) (s e : Word) : Prop :=
  ∃ n, 3 ≤ n ∧ e.toNat - s.toNat = 2 ^ n ∧ s.toNat % 2 ^ n = 0 ∧ (0 < p.G → 2 + p.G ≤ n)

/-- What a sequence of configure commands, each with region operands of its own, can make of a state (R112, R163 step 3). -/
inductive ConfigureReach (s : State) : State → Prop where
  | start : ConfigureReach s s
  | more (t u : State) (i : Instr) (cmd st en : Word) (before : ConfigureReach s t)
      (conf : i.isConfigure = true) (ran : exec i (t.samplePorts cmd st en) = .next u) : ConfigureReach s u

/-- A sequence of configure commands, each with region operands of its own, none of which names entry `i` of bank `b`; with
`keep` none is CFG_TOR of the entry above either (R128). -/
inductive OtherConfigures (b i : Nat) (keep : Bool) (s : State) : State → Prop where
  | start : OtherConfigures b i keep s s
  | more (t u : State) (c : Instr) (cmd st en : Word) (before : OtherConfigures b i keep s t)
      (conf : c.isConfigure = true) (other : c.bank = b → c.entry? ≠ some i)
      (above : keep = true → ∀ perm, c ≠ .cfgTor b (i + 1) perm)
      (ran : exec c (t.samplePorts cmd st en) = .next u) : OtherConfigures b i keep s u

/-- DECODE of entry `i` of bank `b` returns Ok with this permission and region. -/
def DecodesTo (s : State) (b i : Nat) (perm : Nibble) (lo hi : Word) : Prop :=
  ∃ t, exec (.decode b i) s = .next t ∧ t.result = 0 ∧ t.outPerm = perm ∧ t.outStart = lo ∧ t.outEnd = hi

end Sys2Proof.Machine
end

