-- ==== Sys2Proof/Certificates/Slice0/Obligations.lean ====
section
/-! DEFINITION. The statements about the model, one `def Obligations.<Name> : Prop` each. Rules are those of spec/. -/

open Sys2Proof Sys2Proof.Machine

/-! ### Command words (30_encoding.md) -/

/-- Words the spec writes out (R80, 95_test_vectors.md) decode to the commands they stand for. -/
def Obligations.SpecWordsDecode : Prop :=
  decode 0x00007000 = .ok (.cfgOff 0 0 0x7) ∧
  decode 0x00003011 = .ok (.cfgTor 0 1 0x3) ∧
  decode 0x00001002 = .ok (.cfgNa4 0 0 0x1) ∧
  decode 0x0000F003 = .ok (.cfgNapot 0 0 0xF) ∧
  decode 0x00100014 = .ok (.decode 1 1) ∧
  decode 0x00200005 = .ok (.commit 2) ∧
  decode 0x00100006 = .ok (.read 1) ∧
  decode 0x00060007 = .ok (.verify 0 0x6)

/-- No bit of an encoding is dropped: decoding the word of a well-formed command gives the command back. -/
def Obligations.DecodeOfEncode : Prop :=
  ∀ i : Instr, i.wellFormed = true → decode (encode i) = .ok i

/-- Decoding is injective up to the ignored fields (R73): a decoded command is well formed, and the bits its OP uses are
those of its encoding. -/
def Obligations.DecodedWordIsEncodingUpToIgnoredBits : Prop :=
  ∀ (w : Word) (i : Instr), decode w = .ok i → i.wellFormed = true ∧ w &&& usedMask i = encode i

/-- An ignored field changes nothing (R73): words that agree on the bits their OP uses are the same command, and a command
other than a configure command does the same whatever START and END are. -/
def Obligations.IgnoredFieldsDoNotMatter : Prop :=
  (∀ (w w' : Word) (i : Instr), decode w = .ok i → w' &&& usedMask i = w &&& usedMask i → decode w' = .ok i) ∧
  (∀ (i : Instr) (s t : State) (x y : Word), i.isConfigure = false → exec i s = .next t →
    exec i { s with portStart := x, portEnd := y } = .next { t with portStart := x, portEnd := y })

/-- The commands are the words whose reserved bits are 0 and whose OP is below 8: the table's mask 0xFF08000F (R72, R79). -/
def Obligations.CommandsAreTheTableWords : Prop :=
  ∀ w : Word, (∃ i, decode w = .ok i) ↔ (w &&& 0xFF08000F).toNat < 8

/-! ### Steps -/

/-- A step whose next input is a command samples the ports and is `exec` of the decoded command. -/
def Obligations.StepRunsDecodedCommand : Prop :=
  ∀ (s : State) (cmd st en : Word) (rest : List Input) (i : Instr),
    s.inputs = .command cmd st en :: rest → decode cmd = .ok i →
    step s = exec i { s with inputs := rest, portCmd := cmd, portStart := st, portEnd := en }

/-- A reserved word (R72) is no command: it ends with RESULT = Error and changes no bank and no CSR, and takes none of the CSR file's draws. -/
def Obligations.ReservedWordEndsInError : Prop :=
  ∀ (s : State) (cmd st en : Word) (rest : List Input),
    s.inputs = .command cmd st en :: rest →
    8 ≤ cmd.toNat % 16 ∨ cmd.getLsbD 19 = true ∨ cmd.extractLsb' 24 8 ≠ 0 →
    (∀ i, decode cmd ≠ .ok i) ∧
    ∃ t, step s = .next t ∧ t.result = 5 ∧ t.banks = s.banks ∧ t.csr = s.csr ∧ t.params = s.params ∧
      t.draws = s.draws ∧ t.inputs = rest

/-- Between two commands: with no input the block waits; an environment write changes the CSR it names and nothing else
(R57; log 4); a reset makes every bank the empty state and changes no CSR (R38, R161; log 10). -/
def Obligations.StepBetweenCommands : Prop :=
  (∀ s : State, s.inputs = [] → step s = .next s) ∧
  (∀ (s : State) (r : CsrReg) (v : Word) (rest : List Input), s.inputs = .envWrite r v :: rest →
    step s = .next { s with inputs := rest, csr := csrSet s.csr r v }) ∧
  (∀ (s : State) (rest : List Input), s.inputs = .reset :: rest →
    ∃ t, step s = .next t ∧ t.banks = emptyBanks s.params ∧ t.csr = s.csr ∧ t.params = s.params ∧
      t.inputs = rest ∧ t.draws = s.draws)

/-- Every step answers a next state, takes one input, and leaves the parameters alone (R151, R173, R175 `ParamsFixed`). -/
def Obligations.EveryStepAnswersAndKeepsParams : Prop :=
  ∀ s : State, ∃ t, step s = .next t ∧ t.params = s.params ∧ t.inputs = s.inputs.tail

/-- Every step keeps the shape of the state. -/
def Obligations.StepKeepsShape : Prop :=
  ∀ s t : State, s.ShapeOk → step s = .next t → t.ShapeOk

/-- The reset state has the shape. -/
def Obligations.ResetHasShape : Prop := State.reset.ShapeOk

/-- After reset every entry of every bank is zero and decodes as OFF, `{0, 0}`, unlocked-none (R38), whatever the parameters,
the CSR file and the output ports are at launch. -/
def Obligations.LaunchBanksAreEmpty : Prop :=
  ∀ (p : Params) (c : CsrFile) (r : BitVec 3) (out : Decoded) (ins : List Input) (ds : List Bool) (b i : Nat),
    b < p.numBanks → i < p.N →
    ((State.launch p c r out ins ds).bank b).cfg i = 0 ∧ ((State.launch p c r out ins ds).bank b).addr i = 0 ∧
    ((State.launch p c r out ins ds).bank b).mode i = .off ∧
    decodeEntry p ((State.launch p c r out ins ds).bank b) i = .ok { start := 0, stop := 0, perm := 0 }

/-! ### Result codes (60_exceptions.md) -/

/-- Which command can answer which code (R146, R147): 6 and 7 never, BadRegion and Conflict only from configure commands,
Mismatch only from VERIFY, Error from no configure command. -/
def Obligations.WhichCommandRaisesWhichCode : Prop :=
  ∀ (i : Instr) (s t : State), exec i s = .next t →
    t.result.toNat < 6 ∧
    (t.result = 2 ∨ t.result = 3 → i.isConfigure = true) ∧
    (t.result = 4 → ∃ b q, i = .verify b q) ∧
    (t.result = 5 → i.isConfigure = false)

/-- A command that does not return Ok changes no bank; the CSR file may change only by COMMIT (R150). -/
def Obligations.FailureChangesNoBank : Prop :=
  ∀ (i : Instr) (s t : State), exec i s = .next t → t.result ≠ 0 →
    t.banks = s.banks ∧ (i.isCommit = false → t.csr = s.csr)

/-- BANK is bits 23:20 of the word, and `BANK >= NUM_BANKS` is BadArg for every command; nothing but the output ports
changes (R75). -/
def Obligations.BankOutOfRangeIsBadArg : Prop :=
  (∀ (w : Word) (i : Instr), decode w = .ok i → i.bank = (w.extractLsb' 20 4).toNat) ∧
  ∀ (i : Instr) (s : State), s.params.numBanks ≤ i.bank →
    ∃ t, exec i s = .next t ∧ t.result = 1 ∧ t.banks = s.banks ∧ SameOutside s t

/-- ENTRY is bits 11:4 of the word, and `ENTRY >= N` is BadArg for every command that uses ENTRY (R74). -/
def Obligations.EntryOutOfRangeIsBadArg : Prop :=
  (∀ (w : Word) (i : Instr) (e : Nat), decode w = .ok i → i.entry? = some e → e = (w.extractLsb' 4 8).toNat) ∧
  ∀ (i : Instr) (s : State) (e : Nat), i.entry? = some e → s.params.N ≤ e →
    ∃ t, exec i s = .next t ∧ t.result = 1 ∧ t.banks = s.banks ∧ SameOutside s t

/-! ### The configure commands (40_encoder.md, 41_checker.md) -/

/-- A configure command answers BadArg exactly on the causes of R75, R84 and R85, and then changes no state. -/
def Obligations.ConfigureBadArgExactly : Prop :=
  ForEachConfigure fun k => ∀ (s t : State) (b i : Nat) (perm : Nibble), exec (k b i perm) s = .next t →
    (t.result = 1 ↔ BadArgCause s b i perm) ∧
    (BadArgCause s b i perm → t.banks = s.banks ∧ SameOutside s t)

/-- Without a BadArg cause, each configure command answers BadRegion exactly on the regions its mode cannot hold
(R87, R92, R97, R98, R101, R102). -/
def Obligations.ConfigureBadRegionExactly : Prop :=
  ∀ (s t : State) (b i : Nat) (perm : Nibble), ¬ BadArgCause s b i perm →
    (exec (.cfgOff b i perm) s = .next t → (t.result = 2 ↔ s.portStart ≠ s.portEnd)) ∧
    (exec (.cfgTor b i perm) s = .next t →
      (t.result = 2 ↔
        s.portStart.toNat % 2 ^ (2 + s.params.G) ≠ 0 ∨ s.portEnd.toNat % 2 ^ (2 + s.params.G) ≠ 0)) ∧
    (exec (.cfgNa4 b i perm) s = .next t →
      (t.result = 2 ↔
        s.params.G ≠ 0 ∨ s.portEnd.toNat - s.portStart.toNat ≠ 4 ∨ s.portStart.toNat % 4 ≠ 0)) ∧
    (exec (.cfgNapot b i perm) s = .next t →
      (t.result = 2 ↔ ¬ NapotRegion s.params s.portStart s.portEnd))

/-- Without a BadArg or BadRegion answer, each configure command answers Conflict exactly on the causes of R91, R93, R95,
R107 and R109, and otherwise Ok. -/
def Obligations.ConfigureConflictExactly : Prop :=
  ∀ (s t : State) (b i : Nat) (perm : Nibble), t.result ≠ 1 → t.result ≠ 2 →
    (exec (.cfgOff b i perm) s = .next t →
      (t.result = 3 ↔ ChangesTorBase s b i (s.portStart >>> 2)) ∧ (t.result ≠ 3 → t.result = 0)) ∧
    (exec (.cfgTor b i perm) s = .next t →
      (t.result = 3 ↔ BaseRefused s b i s.portStart ∨ ChangesTorBase s b i (s.portEnd >>> 2)) ∧
      (t.result ≠ 3 → t.result = 0)) ∧
    (exec (.cfgNa4 b i perm) s = .next t →
      (t.result = 3 ↔ BelowTor s b i) ∧ (t.result ≠ 3 → t.result = 0)) ∧
    (exec (.cfgNapot b i perm) s = .next t →
      (t.result = 3 ↔ BelowTor s b i) ∧ (t.result ≠ 3 → t.result = 0))

/-- CFG_OFF completes on a zero-length region that moves no TOR base: `address = start >> 2`, the byte of mode OFF, and
nothing else (R86, R87, R88). -/
def Obligations.CfgOffWritesItsEntry : Prop :=
  ∀ (s : State) (b i : Nat) (perm : Nibble), s.ShapeOk → ¬ BadArgCause s b i perm →
    s.portStart = s.portEnd → ¬ ChangesTorBase s b i (s.portStart >>> 2) →
    ∃ t, exec (.cfgOff b i perm) s = .next t ∧ t.result = 0 ∧
      (t.bank b).entry i = { cfg := cfgByte perm .off, addr := s.portStart >>> 2 } ∧
      SameOtherEntries b [i] s t ∧ SameOtherBanks b s t ∧ SameOutside s t

/-- CFG_TOR completes on a region on the grain whose base the entry below can hold and whose top moves no TOR base: the
pair of address words becomes `start >> 2`, `end >> 2`; an OFF entry below keeps its byte (R90, R93, R94). -/
def Obligations.CfgTorWritesTopAndBase : Prop :=
  ∀ (s : State) (b i : Nat) (perm : Nibble), s.ShapeOk → ¬ BadArgCause s b i perm →
    s.portStart.toNat % 2 ^ (2 + s.params.G) = 0 → s.portEnd.toNat % 2 ^ (2 + s.params.G) = 0 →
    ¬ BaseRefused s b i s.portStart → ¬ ChangesTorBase s b i (s.portEnd >>> 2) →
    ∃ t, exec (.cfgTor b i perm) s = .next t ∧ t.result = 0 ∧
      (t.bank b).entry i = { cfg := cfgByte perm .tor, addr := s.portEnd >>> 2 } ∧
      (0 < i → (s.bank b).mode (i - 1) = .off →
        (t.bank b).entry (i - 1) = { cfg := (s.bank b).cfg (i - 1), addr := s.portStart >>> 2 }) ∧
      (0 < i → (s.bank b).mode (i - 1) ≠ .off → (t.bank b).entry (i - 1) = (s.bank b).entry (i - 1)) ∧
      SameOtherEntries b [i, i - 1] s t ∧ SameOtherBanks b s t ∧ SameOutside s t

/-- CFG_NA4 completes with G = 0 on four bytes at a multiple of 4, not below a TOR entry (R97). -/
def Obligations.CfgNa4WritesItsEntry : Prop :=
  ∀ (s : State) (b i : Nat) (perm : Nibble), s.ShapeOk → ¬ BadArgCause s b i perm →
    s.params.G = 0 → s.portEnd.toNat = s.portStart.toNat + 4 → s.portStart.toNat % 4 = 0 → ¬ BelowTor s b i →
    ∃ t, exec (.cfgNa4 b i perm) s = .next t ∧ t.result = 0 ∧
      (t.bank b).entry i = { cfg := cfgByte perm .na4, addr := s.portStart >>> 2 } ∧
      SameOtherEntries b [i] s t ∧ SameOtherBanks b s t ∧ SameOutside s t

/-- CFG_NAPOT completes on a NAPOT region not below a TOR entry. For the length `2^(k+3)` the word has ones in its low `k`
bits, a zero in bit `k`, and the start above it (R69, R100). -/
def Obligations.CfgNapotWritesItsEntry : Prop :=
  ∀ (s : State) (b i : Nat) (perm : Nibble) (k : Nat), s.ShapeOk → ¬ BadArgCause s b i perm →
    s.portEnd.toNat = s.portStart.toNat + 2 ^ (k + 3) → s.portStart.toNat % 2 ^ (k + 3) = 0 →
    (0 < s.params.G → 2 + s.params.G ≤ k + 3) → ¬ BelowTor s b i →
    ∃ t, exec (.cfgNapot b i perm) s = .next t ∧ t.result = 0 ∧
      (t.bank b).cfg i = cfgByte perm .napot ∧
      ((t.bank b).addr i).toNat = s.portStart.toNat / 4 + (2 ^ k - 1) ∧
      SameOtherEntries b [i] s t ∧ SameOtherBanks b s t ∧ SameOutside s t

/-- `cfgbyte`, `perm_of` and `cfg_valid` (R62, R65, R66). A byte made from a permission and a mode has the mode in bits 4:3,
bits 6:5 zero and the permission's bits; a byte's permission has the byte's bits 7, 2, 1, 0; a byte is valid when bits 6:5
are zero and it has not R = 0 with W = 1. -/
def Obligations.CfgByteHoldsPermissionAndMode : Prop :=
  (Mode.off.bits = 0 ∧ Mode.tor.bits = 1 ∧ Mode.na4.bits = 2 ∧ Mode.napot.bits = 3) ∧
  (∀ (perm : Nibble) (m : Mode),
    (cfgByte perm m).extractLsb' 3 2 = m.bits ∧ (cfgByte perm m).extractLsb' 5 2 = 0 ∧
    PermBitsOf perm (cfgByte perm m) ∧ cfgMode (cfgByte perm m) = m) ∧
  (∀ c : Byte, PermBitsOf (permOf c) c ∧ (cfgValid c = true ↔ ¬ CfgByteBad c))

/-- The frame of every configure command, whatever it answers: only address words and the byte of its own entry in its own
bank, and, for CFG_TOR only, the address word of an OFF entry below (R26, R86, R94). -/
def Obligations.ConfigureFrame : Prop :=
  ForEachConfigure fun k => ∀ (s t : State) (b i : Nat) (perm : Nibble), exec (k b i perm) s = .next t →
    SameOutside s t ∧ SameOtherBanks b s t ∧
    (∀ j, j ≠ i → (t.bank b).cfg j = (s.bank b).cfg j) ∧
    (∀ j, j ≠ i → (t.bank b).addr j ≠ (s.bank b).addr j →
      k b i perm = .cfgTor b i perm ∧ j + 1 = i ∧ (s.bank b).mode j = .off)

/-- A configure command depends on nothing but its bank, its operands and the parameters: not on the CSR file, the posture,
another bank or a draw (R84, R105, R116). -/
def Obligations.ConfigureSeesOnlyItsBank : Prop :=
  ForEachConfigure fun k => ∀ (s s' t t' : State) (b i : Nat) (perm : Nibble),
    s.ShapeOk → s'.ShapeOk → s'.params = s.params → s'.portStart = s.portStart → s'.portEnd = s.portEnd →
    s'.bank b = s.bank b → exec (k b i perm) s = .next t → exec (k b i perm) s' = .next t' →
    t'.result = t.result ∧ t'.bank b = t.bank b

/-- A configure command that succeeded succeeds again with the same operands and changes no bank (R37). -/
def Obligations.ConfigureIsIdempotent : Prop :=
  ForEachConfigure fun k => ∀ (s t u : State) (b i : Nat) (perm : Nibble), s.ShapeOk →
    exec (k b i perm) s = .next t → t.result = 0 → exec (k b i perm) t = .next u →
    u.result = 0 ∧ u.banks = t.banks

/-- Every command but READ leaves every well-formed bank well formed (R110, R111). -/
def Obligations.CommandsButReadKeepBanksWellFormed : Prop :=
  ∀ (i : Instr) (s t : State) (c : Nat), (∀ b, i ≠ .read b) → exec i s = .next t →
    (s.bank c).Wf s.params.N → (t.bank c).Wf s.params.N

/-- Invariant 1 (R106, R112): while entry `j` is TOR, a configure command that is not CFG_TOR of entry `j` leaves its base
word, the word of entry `j - 1`, as it was. -/
def Obligations.TorBaseIsNotChangedFromOutside : Prop :=
  ∀ (c : Instr) (s t : State) (b j : Nat), s.ShapeOk → c.isConfigure = true → exec c s = .next t →
    1 ≤ j → j < s.params.N → (s.bank b).mode j = .tor → (∀ perm, c ≠ .cfgTor b j perm) →
    (t.bank b).addr (j - 1) = (s.bank b).addr (j - 1)

/-- A bank whose every entry DECODE accepts stays so under every configure command: no configure command makes a reserved
byte, a broken TOR chain, a top below its base or a word without a region (R119, R122, R123, R126). -/
def Obligations.ConfigureKeepsEveryEntryDecodable : Prop :=
  ∀ (c : Instr) (s t : State) (b : Nat), c.isConfigure = true → exec c s = .next t →
    (s.bank b).AllDecode s.params → (t.bank b).AllDecode s.params

/-- From a launch, after any sequence of configure commands, DECODE of every entry of every bank returns Ok. -/
def Obligations.ConfiguredBanksAlwaysDecode : Prop :=
  ∀ (p : Params) (c : CsrFile) (r : BitVec 3) (out : Decoded) (ins : List Input) (ds : List Bool) (s : State) (b i : Nat),
    ConfigureReach (State.launch p c r out ins ds) s → b < p.numBanks → i < p.N →
    ∃ t, exec (.decode b i) s = .next t ∧ t.result = 0 ∧ t.banks = s.banks

/-! ### DECODE (42_decoder.md) -/

/-- DECODE of an OFF entry: the zero-length region at the stored word, and its permission (R120, R121). -/
def Obligations.DecodeOffEntry : Prop :=
  ∀ (s : State) (b i : Nat), b < s.params.numBanks → i < s.params.N → ¬ CfgByteBad ((s.bank b).cfg i) →
    (s.bank b).mode i = .off → ((s.bank b).addr i).toNat < 2 ^ 30 →
    ∃ t, exec (.decode b i) s = .next t ∧ t.result = 0 ∧
      t.outStart.toNat = 4 * ((s.bank b).addr i).toNat ∧ t.outEnd = t.outStart ∧
      PermBitsOf t.outPerm ((s.bank b).cfg i) ∧ t.banks = s.banks ∧ SameOutside s t

/-- DECODE of a TOR entry above an OFF or TOR entry, or of entry 0: from the word below (0 for entry 0) to its own word
(R122). -/
def Obligations.DecodeTorEntry : Prop :=
  ∀ (s : State) (b i : Nat) (base : Word), b < s.params.numBanks → i < s.params.N →
    ¬ CfgByteBad ((s.bank b).cfg i) → (s.bank b).mode i = .tor →
    (i = 0 → base = 0) →
    (0 < i → base = (s.bank b).addr (i - 1) ∧
      ((s.bank b).mode (i - 1) = .off ∨ (s.bank b).mode (i - 1) = .tor)) →
    base.toNat ≤ ((s.bank b).addr i).toNat → ((s.bank b).addr i).toNat < 2 ^ 30 →
    ∃ t, exec (.decode b i) s = .next t ∧ t.result = 0 ∧
      t.outStart.toNat = 4 * base.toNat ∧ t.outEnd.toNat = 4 * ((s.bank b).addr i).toNat ∧
      PermBitsOf t.outPerm ((s.bank b).cfg i) ∧ t.banks = s.banks ∧ SameOutside s t

/-- DECODE of an NA4 entry: four bytes at its word (R124). -/
def Obligations.DecodeNa4Entry : Prop :=
  ∀ (s : State) (b i : Nat), b < s.params.numBanks → i < s.params.N → ¬ CfgByteBad ((s.bank b).cfg i) →
    (s.bank b).mode i = .na4 → ((s.bank b).addr i).toNat < 2 ^ 30 - 1 →
    ∃ t, exec (.decode b i) s = .next t ∧ t.result = 0 ∧
      t.outStart.toNat = 4 * ((s.bank b).addr i).toNat ∧ t.outEnd.toNat = t.outStart.toNat + 4 ∧
      PermBitsOf t.outPerm ((s.bank b).cfg i) ∧ t.banks = s.banks ∧ SameOutside s t

/-- DECODE of a NAPOT entry whose word is `m` above a zero bit above `k` ones: the `2^(k+3)` bytes at `m * 2^(k+3)`
(R70, R125), when that region ends below `2^32` (R126). -/
def Obligations.DecodeNapotEntry : Prop :=
  ∀ (s : State) (b i k m : Nat), b < s.params.numBanks → i < s.params.N → ¬ CfgByteBad ((s.bank b).cfg i) →
    (s.bank b).mode i = .napot → ((s.bank b).addr i).toNat = m * 2 ^ (k + 1) + (2 ^ k - 1) →
    (m + 1) * 2 ^ (k + 3) < 2 ^ 32 →
    ∃ t, exec (.decode b i) s = .next t ∧ t.result = 0 ∧
      t.outStart.toNat = m * 2 ^ (k + 3) ∧ t.outEnd.toNat = (m + 1) * 2 ^ (k + 3) ∧
      PermBitsOf t.outPerm ((s.bank b).cfg i) ∧ t.banks = s.banks ∧ SameOutside s t

/-- DECODE of an entry in range answers Error on a configuration byte that is not valid (R119). -/
def Obligations.DecodeRejectsInvalidByte : Prop :=
  ∀ (s : State) (b i : Nat), b < s.params.numBanks → i < s.params.N → CfgByteBad ((s.bank b).cfg i) →
    ∃ t, exec (.decode b i) s = .next t ∧ t.result = 5 ∧ t.banks = s.banks ∧ SameOutside s t

/-- DECODE of a TOR entry above an NA4 or NAPOT entry, or with its top below its base, answers Error (R122, R123). -/
def Obligations.DecodeRejectsBrokenTorPair : Prop :=
  ∀ (s : State) (b i : Nat), b < s.params.numBanks → 0 < i → i < s.params.N → (s.bank b).mode i = .tor →
    ((s.bank b).mode (i - 1) = .na4 ∨ (s.bank b).mode (i - 1) = .napot ∨
      ((s.bank b).addr i).toNat < ((s.bank b).addr (i - 1)).toNat) →
    ∃ t, exec (.decode b i) s = .next t ∧ t.result = 5 ∧ t.banks = s.banks ∧ SameOutside s t

/-- DECODE answers Error on a word whose region needs a bound of `2^32` or more (R125, R126): an OFF or TOR word of `2^30` or
more, an NA4 word of `2^30 - 1` or more, a NAPOT word with more than 28 trailing ones or whose region reaches `2^32`. -/
def Obligations.DecodeRejectsUnrepresentableWord : Prop :=
  ∀ (s : State) (b i : Nat), b < s.params.numBanks → i < s.params.N →
    ((((s.bank b).mode i = .off ∨ (s.bank b).mode i = .tor) ∧ 2 ^ 30 ≤ ((s.bank b).addr i).toNat) ∨
      ((s.bank b).mode i = .na4 ∧ 2 ^ 30 - 1 ≤ ((s.bank b).addr i).toNat) ∨
      ((s.bank b).mode i = .napot ∧ ((s.bank b).addr i).toNat % 2 ^ 29 = 2 ^ 29 - 1) ∨
      ((s.bank b).mode i = .napot ∧ ∃ k m, ((s.bank b).addr i).toNat = m * 2 ^ (k + 1) + (2 ^ k - 1) ∧
        2 ^ 32 ≤ (m + 1) * 2 ^ (k + 3))) →
    ∃ t, exec (.decode b i) s = .next t ∧ t.result = 5 ∧ t.banks = s.banks ∧ SameOutside s t

/-- DECODE is read-only whatever it answers: no bank, no CSR, no draw, no port but the output ports (R127). -/
def Obligations.DecodeIsReadOnly : Prop :=
  ∀ (s t : State) (b i : Nat), exec (.decode b i) s = .next t → t.banks = s.banks ∧ SameOutside s t

/-- The round trip (R128). After a configure command that succeeded on entry `i`, and any later configure commands that do not
name it, DECODE of it returns the region and the permission it was given; for CFG_OFF the start with its low two bits
dropped, until a CFG_TOR of the entry above succeeds, which leaves its own start there. -/
def Obligations.DecodeInvertsConfigure : Prop :=
  ∀ (s t u : State) (b i : Nat) (perm : Nibble), s.ShapeOk → t.result = 0 →
    (exec (.cfgOff b i perm) s = .next t → OtherConfigures b i true t u →
      DecodesTo u b i perm (s.portStart &&& 0xFFFFFFFC) (s.portStart &&& 0xFFFFFFFC)) ∧
    (exec (.cfgTor b i perm) s = .next t → OtherConfigures b i false t u →
      DecodesTo u b i perm s.portStart s.portEnd) ∧
    (exec (.cfgNa4 b i perm) s = .next t → OtherConfigures b i false t u →
      DecodesTo u b i perm s.portStart s.portEnd) ∧
    (exec (.cfgNapot b i perm) s = .next t → OtherConfigures b i false t u →
      DecodesTo u b i perm s.portStart s.portEnd) ∧
    (∀ (v : State) (cmd st en : Word) (perm' : Nibble), exec (.cfgOff b i perm) s = .next t →
      OtherConfigures b i true t u → exec (.cfgTor b (i + 1) perm') (u.samplePorts cmd st en) = .next v →
      v.result = 0 → DecodesTo v b i perm st st)

/-- What DECODE returns of an entry, however it came there, stays so under a configure command that does not name the entry,
except for CFG_TOR of the entry above an OFF entry. -/
def Obligations.DecodedRegionOutlivesOtherCommands : Prop :=
  ∀ (c : Instr) (s t : State) (b i : Nat) (d : Decoded), s.ShapeOk → b < s.params.numBanks → c.isConfigure = true →
    exec c s = .next t → decodeEntry s.params (s.bank b) i = .ok d →
    (c.bank = b → c.entry? ≠ some i) →
    (∀ perm, (s.bank b).mode i = .off → c ≠ .cfgTor b (i + 1) perm) →
    decodeEntry t.params (t.bank b) i = .ok d

/-! ### COMMIT, READ, VERIFY (43_synchronizer.md) -/

/-- COMMIT completes when no access fails: every write of R130, in its order, each legalized against the file so far (R48);
no bank changes; with the identity `Legalize` the file then holds the bank bit for bit (R134). -/
def Obligations.CommitWritesEveryRegister : Prop :=
  ∀ (s : State) (b : Nat), s.ShapeOk → b < s.params.numBanks → ¬ SomeAccessFails s (bankAccesses s.params) →
    ∃ t, exec (.commit b) s = .next t ∧ t.result = 0 ∧ t.banks = s.banks ∧
      t.csr = csrAfter s.params s.csr
        ((List.range s.params.N).map (fun i => (CsrReg.pmpaddr i, (s.bank b).addr i)) ++
         (List.range (s.params.N / 4)).map (fun j => (CsrReg.pmpcfg j, (s.bank b).pack j))) ∧
      t.csr.mseccfg = s.csr.mseccfg ∧
      (s.params.backend = .reference → CsrHolds s.params t.csr (s.bank b)) ∧ t.params = s.params ∧ t.inputs = s.inputs ∧
      t.portCmd = s.portCmd ∧ t.portStart = s.portStart ∧ t.portEnd = s.portEnd

/-- COMMIT stops at the first failed write with Error; the writes before it stay done (R132). -/
def Obligations.CommitStopsAtFirstFailedWrite : Prop :=
  ∀ (s : State) (b n : Nat), b < s.params.numBanks → n < bankAccesses s.params →
    (∀ k, k < n → s.draws.getD k false = false) → s.draws.getD n false = true →
    ∃ t, exec (.commit b) s = .next t ∧ t.result = 5 ∧ t.banks = s.banks ∧
      t.csr = csrAfter s.params s.csr
        (((List.range s.params.N).map (fun i => (CsrReg.pmpaddr i, (s.bank b).addr i)) ++
          (List.range (s.params.N / 4)).map (fun j => (CsrReg.pmpcfg j, (s.bank b).pack j))).take n)

/-- Lanes (R50): entry `i` is bits `8*(i%4)+7 : 8*(i%4)` of the packed register `i/4`, and lane `k` of a register is its bits
`8k+7 : 8k`. -/
def Obligations.PackedLanes : Prop :=
  (∀ (bk : Bank) (i : Nat), ((bk.pack (i / 4)).extractLsb' (8 * (i % 4)) 8 : Byte) = bk.cfg i) ∧
  (∀ (w : Word) (k : Nat), k < 4 → unpack w k = w.extractLsb' (8 * k) 8)

/-- READ completes when no access fails: every entry of the bank is what the CSR file shows, bit for bit (R135, R136). -/
def Obligations.ReadLoadsTheWholeBank : Prop :=
  ∀ (s : State) (b : Nat), s.ShapeOk → b < s.params.numBanks → ¬ SomeAccessFails s (bankAccesses s.params) →
    ∃ t, exec (.read b) s = .next t ∧ t.result = 0 ∧
      CsrShows s.params s.csr (t.bank b) ∧ (t.bank b).entries.length = s.params.N ∧ SameOtherBanks b s t ∧
      t.csr = s.csr ∧ t.params = s.params ∧ t.inputs = s.inputs ∧
      t.portCmd = s.portCmd ∧ t.portStart = s.portStart ∧ t.portEnd = s.portEnd

/-- READ answers Error when one of its accesses fails, and leaves every bank and the CSR file as they were (R135, R136). -/
def Obligations.ReadFailureLeavesTheBank : Prop :=
  ∀ (s : State) (b : Nat), b < s.params.numBanks → SomeAccessFails s (bankAccesses s.params) →
    ∃ t, exec (.read b) s = .next t ∧ t.result = 5 ∧ t.banks = s.banks ∧ t.csr = s.csr ∧ t.params = s.params ∧
      t.inputs = s.inputs

/-- VERIFY (R137 to R141): Error when one of its reads fails, even if something differs; else Ok exactly when the CSR file
shows the bank bit for bit and mseccfg bits 2:0 are the posture, and Mismatch otherwise. It changes no bank and no CSR. -/
def Obligations.VerifyAnswersWhatTheCsrsShow : Prop :=
  ∀ (s : State) (b : Nat) (q : Posture), s.ShapeOk → b < s.params.numBanks →
    ∃ t, exec (.verify b q) s = .next t ∧ t.banks = s.banks ∧ t.csr = s.csr ∧ t.params = s.params ∧
      t.inputs = s.inputs ∧ t.portCmd = s.portCmd ∧ t.portStart = s.portStart ∧ t.portEnd = s.portEnd ∧
      (SomeAccessFails s (bankAccesses s.params + 1) → t.result = 5) ∧
      (¬ SomeAccessFails s (bankAccesses s.params + 1) →
        (CsrShows s.params s.csr (s.bank b) ∧ PostureShows s.params s.csr q → t.result = 0) ∧
        (¬ (CsrShows s.params s.csr (s.bank b) ∧ PostureShows s.params s.csr q) → t.result = 4))

/-- "Verify catches drift" (R142). With the identity `Legalize` and `View`: after a COMMIT that returned Ok, with the CSR file
then standing at `c` and no read failing, VERIFY of the same bank returns Ok exactly when no bit of any address or
configuration register differs from what COMMIT left and mseccfg bits 2:0 are the posture, and Mismatch otherwise. -/
def Obligations.VerifyCatchesDrift : Prop :=
  ∀ (s t v : State) (b : Nat) (q : Posture) (c : CsrFile) (ds : List Bool), s.ShapeOk →
    s.params.backend = .reference → exec (.commit b) s = .next t → t.result = 0 →
    c.pmpcfg.length = t.csr.pmpcfg.length → c.pmpaddr.length = t.csr.pmpaddr.length →
    (∀ k, ds.getD k false = false) → exec (.verify b q) { t with csr := c, draws := ds } = .next v →
    (v.result = 0 ↔
      c.pmpcfg = t.csr.pmpcfg ∧ c.pmpaddr = t.csr.pmpaddr ∧ c.mseccfg.extractLsb' 0 3 = q) ∧
    (v.result ≠ 0 → v.result = 4)

/-- READ then VERIFY, with any `View`: a bank loaded by READ matches what the CSR file shows, so a VERIFY of it with the
posture mseccfg shows returns Ok (R136, R137). -/
def Obligations.VerifyAfterReadSucceeds : Prop :=
  ∀ (s t : State) (b : Nat), s.ShapeOk → exec (.read b) s = .next t → t.result = 0 →
    ¬ SomeAccessFails t (bankAccesses s.params + 1) →
    ∃ v, exec (.verify b ((view s.params .mseccfg s.csr).extractLsb' 0 3)) t = .next v ∧ v.result = 0 ∧
      v.banks = t.banks

/-- The draws are taken one for each access, in order (R47; the queue is the model's, log 3): COMMIT and READ take those up
to the first failure, VERIFY one for every register, and no other command takes any. -/
def Obligations.AccessesTakeDrawsInOrder : Prop :=
  ∀ (s : State) (b : Nat), b < s.params.numBanks →
    (∀ t, (exec (.commit b) s = .next t ∨ exec (.read b) s = .next t) → ¬ SomeAccessFails s (bankAccesses s.params) →
      t.draws = s.draws.drop (bankAccesses s.params)) ∧
    (∀ t n, (exec (.commit b) s = .next t ∨ exec (.read b) s = .next t) → n < bankAccesses s.params →
      (∀ k, k < n → s.draws.getD k false = false) → s.draws.getD n false = true → t.draws = s.draws.drop (n + 1)) ∧
    (∀ t q, exec (.verify b q) s = .next t → t.draws = s.draws.drop (bankAccesses s.params + 1)) ∧
    (∀ t i, i.isConfigure = true ∨ (∃ c e, i = .decode c e) → exec i s = .next t → t.draws = s.draws)

/-! ### The whole machine -/

/-- No command writes mseccfg, and no command but COMMIT writes any CSR (R34, R127, R141). -/
def Obligations.OnlyCommitWritesCsrsAndNeverMseccfg : Prop :=
  ∀ (i : Instr) (s t : State), exec i s = .next t →
    t.csr.mseccfg = s.csr.mseccfg ∧ (i.isCommit = false → t.csr = s.csr)

/-- Banks are independent: a command writes no bank but the one it names, and COMMIT, VERIFY and DECODE write none
(R26, R127, R133, R141). -/
def Obligations.CommandsWriteOnlyTheirBank : Prop :=
  ∀ (i : Instr) (s t : State), exec i s = .next t →
    SameOtherBanks i.bank s t ∧
    (i.isConfigure = false → (∀ b, i ≠ .read b) → t.banks = s.banks)

/-- Whatever command runs, the parameters, the input ports and the inputs to come stay (R28, R175). -/
def Obligations.CommandsKeepPortsAndInputs : Prop :=
  ∀ (i : Instr) (s t : State), exec i s = .next t →
    t.params = s.params ∧ t.inputs = s.inputs ∧ t.portCmd = s.portCmd ∧ t.portStart = s.portStart ∧
    t.portEnd = s.portEnd

/-- The teardown of R168: with entries `j - 1` and `j` in a TOR chain and entry `j + 1` not TOR, moving the boundary by
CFG_TOR of entry `j - 1` or of entry `j` answers Conflict. -/
def Obligations.LiveTorBoundaryIsNotMoved : Prop :=
  ∀ (s t u : State) (b j : Nat) (perm : Nibble), 1 ≤ j → j < s.params.N →
    (s.bank b).mode (j - 1) = .tor → (s.bank b).mode j = .tor → ¬ BadArgCause s b j perm →
    s.portStart.toNat % 2 ^ (2 + s.params.G) = 0 → s.portEnd.toNat % 2 ^ (2 + s.params.G) = 0 →
    (exec (.cfgTor b (j - 1) perm) s = .next t → s.portEnd >>> 2 ≠ (s.bank b).addr (j - 1) → t.result = 3) ∧
    (exec (.cfgTor b j perm) s = .next u → s.portStart >>> 2 ≠ (s.bank b).addr (j - 1) → u.result = 3)
end

