-- ==== Sys2Proof/Laws/State.lean ====
section
/-! SUPPORT. One lemma for each field of State under each update of it, so that no proof unfolds a record update. -/

namespace Sys2Proof.Machine

variable (s : State)

/-! ### `State.finish` -/

@[simp] theorem State.finish_params (f : Option Failure) :
    (s.finish f).params = s.params := rfl

@[simp] theorem State.finish_banks (f : Option Failure) :
    (s.finish f).banks = s.banks := rfl

@[simp] theorem State.finish_portCmd (f : Option Failure) :
    (s.finish f).portCmd = s.portCmd := rfl

@[simp] theorem State.finish_portStart (f : Option Failure) :
    (s.finish f).portStart = s.portStart := rfl

@[simp] theorem State.finish_portEnd (f : Option Failure) :
    (s.finish f).portEnd = s.portEnd := rfl

@[simp] theorem State.finish_result (f : Option Failure) :
    (s.finish f).result = resultBits f := rfl

@[simp] theorem State.finish_outStart (f : Option Failure) :
    (s.finish f).outStart = Config.freeOutStart s.freeCount := rfl

@[simp] theorem State.finish_outEnd (f : Option Failure) :
    (s.finish f).outEnd = Config.freeOutEnd s.freeCount := rfl

@[simp] theorem State.finish_outPerm (f : Option Failure) :
    (s.finish f).outPerm = Config.freeOutPerm s.freeCount := rfl

@[simp] theorem State.finish_csr (f : Option Failure) :
    (s.finish f).csr = s.csr := rfl

@[simp] theorem State.finish_inputs (f : Option Failure) :
    (s.finish f).inputs = s.inputs := rfl

@[simp] theorem State.finish_draws (f : Option Failure) :
    (s.finish f).draws = s.draws := rfl

@[simp] theorem State.finish_freeCount (f : Option Failure) :
    (s.finish f).freeCount = s.freeCount + 1 := rfl

/-! ### `State.finishDecode` -/

@[simp] theorem State.finishDecode_params (d : Decoded) :
    (s.finishDecode d).params = s.params := rfl

@[simp] theorem State.finishDecode_banks (d : Decoded) :
    (s.finishDecode d).banks = s.banks := rfl

@[simp] theorem State.finishDecode_portCmd (d : Decoded) :
    (s.finishDecode d).portCmd = s.portCmd := rfl

@[simp] theorem State.finishDecode_portStart (d : Decoded) :
    (s.finishDecode d).portStart = s.portStart := rfl

@[simp] theorem State.finishDecode_portEnd (d : Decoded) :
    (s.finishDecode d).portEnd = s.portEnd := rfl

@[simp] theorem State.finishDecode_result (d : Decoded) :
    (s.finishDecode d).result = okBits := rfl

@[simp] theorem State.finishDecode_outStart (d : Decoded) :
    (s.finishDecode d).outStart = d.start := rfl

@[simp] theorem State.finishDecode_outEnd (d : Decoded) :
    (s.finishDecode d).outEnd = d.stop := rfl

@[simp] theorem State.finishDecode_outPerm (d : Decoded) :
    (s.finishDecode d).outPerm = d.perm := rfl

@[simp] theorem State.finishDecode_csr (d : Decoded) :
    (s.finishDecode d).csr = s.csr := rfl

@[simp] theorem State.finishDecode_inputs (d : Decoded) :
    (s.finishDecode d).inputs = s.inputs := rfl

@[simp] theorem State.finishDecode_draws (d : Decoded) :
    (s.finishDecode d).draws = s.draws := rfl

@[simp] theorem State.finishDecode_freeCount (d : Decoded) :
    (s.finishDecode d).freeCount = s.freeCount := rfl

/-! ### `State.setBank` -/

@[simp] theorem State.setBank_params (b : Nat) (bk : Bank) :
    (s.setBank b bk).params = s.params := rfl

@[simp] theorem State.setBank_banks (b : Nat) (bk : Bank) :
    (s.setBank b bk).banks = s.banks.set b bk := rfl

@[simp] theorem State.setBank_portCmd (b : Nat) (bk : Bank) :
    (s.setBank b bk).portCmd = s.portCmd := rfl

@[simp] theorem State.setBank_portStart (b : Nat) (bk : Bank) :
    (s.setBank b bk).portStart = s.portStart := rfl

@[simp] theorem State.setBank_portEnd (b : Nat) (bk : Bank) :
    (s.setBank b bk).portEnd = s.portEnd := rfl

@[simp] theorem State.setBank_result (b : Nat) (bk : Bank) :
    (s.setBank b bk).result = s.result := rfl

@[simp] theorem State.setBank_outStart (b : Nat) (bk : Bank) :
    (s.setBank b bk).outStart = s.outStart := rfl

@[simp] theorem State.setBank_outEnd (b : Nat) (bk : Bank) :
    (s.setBank b bk).outEnd = s.outEnd := rfl

@[simp] theorem State.setBank_outPerm (b : Nat) (bk : Bank) :
    (s.setBank b bk).outPerm = s.outPerm := rfl

@[simp] theorem State.setBank_csr (b : Nat) (bk : Bank) :
    (s.setBank b bk).csr = s.csr := rfl

@[simp] theorem State.setBank_inputs (b : Nat) (bk : Bank) :
    (s.setBank b bk).inputs = s.inputs := rfl

@[simp] theorem State.setBank_draws (b : Nat) (bk : Bank) :
    (s.setBank b bk).draws = s.draws := rfl

@[simp] theorem State.setBank_freeCount (b : Nat) (bk : Bank) :
    (s.setBank b bk).freeCount = s.freeCount := rfl

/-! ### `State.setCsr` -/

@[simp] theorem State.setCsr_params (c : CsrFile) (ds : List Bool) :
    (s.setCsr c ds).params = s.params := rfl

@[simp] theorem State.setCsr_banks (c : CsrFile) (ds : List Bool) :
    (s.setCsr c ds).banks = s.banks := rfl

@[simp] theorem State.setCsr_portCmd (c : CsrFile) (ds : List Bool) :
    (s.setCsr c ds).portCmd = s.portCmd := rfl

@[simp] theorem State.setCsr_portStart (c : CsrFile) (ds : List Bool) :
    (s.setCsr c ds).portStart = s.portStart := rfl

@[simp] theorem State.setCsr_portEnd (c : CsrFile) (ds : List Bool) :
    (s.setCsr c ds).portEnd = s.portEnd := rfl

@[simp] theorem State.setCsr_result (c : CsrFile) (ds : List Bool) :
    (s.setCsr c ds).result = s.result := rfl

@[simp] theorem State.setCsr_outStart (c : CsrFile) (ds : List Bool) :
    (s.setCsr c ds).outStart = s.outStart := rfl

@[simp] theorem State.setCsr_outEnd (c : CsrFile) (ds : List Bool) :
    (s.setCsr c ds).outEnd = s.outEnd := rfl

@[simp] theorem State.setCsr_outPerm (c : CsrFile) (ds : List Bool) :
    (s.setCsr c ds).outPerm = s.outPerm := rfl

@[simp] theorem State.setCsr_csr (c : CsrFile) (ds : List Bool) :
    (s.setCsr c ds).csr = c := rfl

@[simp] theorem State.setCsr_inputs (c : CsrFile) (ds : List Bool) :
    (s.setCsr c ds).inputs = s.inputs := rfl

@[simp] theorem State.setCsr_draws (c : CsrFile) (ds : List Bool) :
    (s.setCsr c ds).draws = ds := rfl

@[simp] theorem State.setCsr_freeCount (c : CsrFile) (ds : List Bool) :
    (s.setCsr c ds).freeCount = s.freeCount := rfl

/-! ### `State.setDraws` -/

@[simp] theorem State.setDraws_params (ds : List Bool) :
    (s.setDraws ds).params = s.params := rfl

@[simp] theorem State.setDraws_banks (ds : List Bool) :
    (s.setDraws ds).banks = s.banks := rfl

@[simp] theorem State.setDraws_portCmd (ds : List Bool) :
    (s.setDraws ds).portCmd = s.portCmd := rfl

@[simp] theorem State.setDraws_portStart (ds : List Bool) :
    (s.setDraws ds).portStart = s.portStart := rfl

@[simp] theorem State.setDraws_portEnd (ds : List Bool) :
    (s.setDraws ds).portEnd = s.portEnd := rfl

@[simp] theorem State.setDraws_result (ds : List Bool) :
    (s.setDraws ds).result = s.result := rfl

@[simp] theorem State.setDraws_outStart (ds : List Bool) :
    (s.setDraws ds).outStart = s.outStart := rfl

@[simp] theorem State.setDraws_outEnd (ds : List Bool) :
    (s.setDraws ds).outEnd = s.outEnd := rfl

@[simp] theorem State.setDraws_outPerm (ds : List Bool) :
    (s.setDraws ds).outPerm = s.outPerm := rfl

@[simp] theorem State.setDraws_csr (ds : List Bool) :
    (s.setDraws ds).csr = s.csr := rfl

@[simp] theorem State.setDraws_inputs (ds : List Bool) :
    (s.setDraws ds).inputs = s.inputs := rfl

@[simp] theorem State.setDraws_draws (ds : List Bool) :
    (s.setDraws ds).draws = ds := rfl

@[simp] theorem State.setDraws_freeCount (ds : List Bool) :
    (s.setDraws ds).freeCount = s.freeCount := rfl

/-! ### `State.setInputs` -/

@[simp] theorem State.setInputs_params (ins : List Input) :
    (s.setInputs ins).params = s.params := rfl

@[simp] theorem State.setInputs_banks (ins : List Input) :
    (s.setInputs ins).banks = s.banks := rfl

@[simp] theorem State.setInputs_portCmd (ins : List Input) :
    (s.setInputs ins).portCmd = s.portCmd := rfl

@[simp] theorem State.setInputs_portStart (ins : List Input) :
    (s.setInputs ins).portStart = s.portStart := rfl

@[simp] theorem State.setInputs_portEnd (ins : List Input) :
    (s.setInputs ins).portEnd = s.portEnd := rfl

@[simp] theorem State.setInputs_result (ins : List Input) :
    (s.setInputs ins).result = s.result := rfl

@[simp] theorem State.setInputs_outStart (ins : List Input) :
    (s.setInputs ins).outStart = s.outStart := rfl

@[simp] theorem State.setInputs_outEnd (ins : List Input) :
    (s.setInputs ins).outEnd = s.outEnd := rfl

@[simp] theorem State.setInputs_outPerm (ins : List Input) :
    (s.setInputs ins).outPerm = s.outPerm := rfl

@[simp] theorem State.setInputs_csr (ins : List Input) :
    (s.setInputs ins).csr = s.csr := rfl

@[simp] theorem State.setInputs_inputs (ins : List Input) :
    (s.setInputs ins).inputs = ins := rfl

@[simp] theorem State.setInputs_draws (ins : List Input) :
    (s.setInputs ins).draws = s.draws := rfl

@[simp] theorem State.setInputs_freeCount (ins : List Input) :
    (s.setInputs ins).freeCount = s.freeCount := rfl

/-! ### `State.samplePorts` -/

@[simp] theorem State.samplePorts_params (x y z : Word) :
    (s.samplePorts x y z).params = s.params := rfl

@[simp] theorem State.samplePorts_banks (x y z : Word) :
    (s.samplePorts x y z).banks = s.banks := rfl

@[simp] theorem State.samplePorts_portCmd (x y z : Word) :
    (s.samplePorts x y z).portCmd = x := rfl

@[simp] theorem State.samplePorts_portStart (x y z : Word) :
    (s.samplePorts x y z).portStart = y := rfl

@[simp] theorem State.samplePorts_portEnd (x y z : Word) :
    (s.samplePorts x y z).portEnd = z := rfl

@[simp] theorem State.samplePorts_result (x y z : Word) :
    (s.samplePorts x y z).result = s.result := rfl

@[simp] theorem State.samplePorts_outStart (x y z : Word) :
    (s.samplePorts x y z).outStart = s.outStart := rfl

@[simp] theorem State.samplePorts_outEnd (x y z : Word) :
    (s.samplePorts x y z).outEnd = s.outEnd := rfl

@[simp] theorem State.samplePorts_outPerm (x y z : Word) :
    (s.samplePorts x y z).outPerm = s.outPerm := rfl

@[simp] theorem State.samplePorts_csr (x y z : Word) :
    (s.samplePorts x y z).csr = s.csr := rfl

@[simp] theorem State.samplePorts_inputs (x y z : Word) :
    (s.samplePorts x y z).inputs = s.inputs := rfl

@[simp] theorem State.samplePorts_draws (x y z : Word) :
    (s.samplePorts x y z).draws = s.draws := rfl

@[simp] theorem State.samplePorts_freeCount (x y z : Word) :
    (s.samplePorts x y z).freeCount = s.freeCount := rfl

/-! ### `State.envWrite` -/

@[simp] theorem State.envWrite_params (r : CsrReg) (v : Word) :
    (s.envWrite r v).params = s.params := rfl

@[simp] theorem State.envWrite_banks (r : CsrReg) (v : Word) :
    (s.envWrite r v).banks = s.banks := rfl

@[simp] theorem State.envWrite_portCmd (r : CsrReg) (v : Word) :
    (s.envWrite r v).portCmd = s.portCmd := rfl

@[simp] theorem State.envWrite_portStart (r : CsrReg) (v : Word) :
    (s.envWrite r v).portStart = s.portStart := rfl

@[simp] theorem State.envWrite_portEnd (r : CsrReg) (v : Word) :
    (s.envWrite r v).portEnd = s.portEnd := rfl

@[simp] theorem State.envWrite_result (r : CsrReg) (v : Word) :
    (s.envWrite r v).result = s.result := rfl

@[simp] theorem State.envWrite_outStart (r : CsrReg) (v : Word) :
    (s.envWrite r v).outStart = s.outStart := rfl

@[simp] theorem State.envWrite_outEnd (r : CsrReg) (v : Word) :
    (s.envWrite r v).outEnd = s.outEnd := rfl

@[simp] theorem State.envWrite_outPerm (r : CsrReg) (v : Word) :
    (s.envWrite r v).outPerm = s.outPerm := rfl

@[simp] theorem State.envWrite_csr (r : CsrReg) (v : Word) :
    (s.envWrite r v).csr = csrSet s.csr r v := rfl

@[simp] theorem State.envWrite_inputs (r : CsrReg) (v : Word) :
    (s.envWrite r v).inputs = s.inputs := rfl

@[simp] theorem State.envWrite_draws (r : CsrReg) (v : Word) :
    (s.envWrite r v).draws = s.draws := rfl

@[simp] theorem State.envWrite_freeCount (r : CsrReg) (v : Word) :
    (s.envWrite r v).freeCount = s.freeCount := rfl

/-! ### `State.resetBlock` -/

@[simp] theorem State.resetBlock_params :
    s.resetBlock.params = s.params := rfl

@[simp] theorem State.resetBlock_banks :
    s.resetBlock.banks = emptyBanks s.params := rfl

@[simp] theorem State.resetBlock_portCmd :
    s.resetBlock.portCmd = s.portCmd := rfl

@[simp] theorem State.resetBlock_portStart :
    s.resetBlock.portStart = s.portStart := rfl

@[simp] theorem State.resetBlock_portEnd :
    s.resetBlock.portEnd = s.portEnd := rfl

@[simp] theorem State.resetBlock_result :
    s.resetBlock.result = Config.freeResult s.freeCount := rfl

@[simp] theorem State.resetBlock_outStart :
    s.resetBlock.outStart = Config.freeOutStart s.freeCount := rfl

@[simp] theorem State.resetBlock_outEnd :
    s.resetBlock.outEnd = Config.freeOutEnd s.freeCount := rfl

@[simp] theorem State.resetBlock_outPerm :
    s.resetBlock.outPerm = Config.freeOutPerm s.freeCount := rfl

@[simp] theorem State.resetBlock_csr :
    s.resetBlock.csr = s.csr := rfl

@[simp] theorem State.resetBlock_inputs :
    s.resetBlock.inputs = s.inputs := rfl

@[simp] theorem State.resetBlock_draws :
    s.resetBlock.draws = s.draws := rfl

@[simp] theorem State.resetBlock_freeCount :
    s.resetBlock.freeCount = s.freeCount + 1 := rfl

end Sys2Proof.Machine
end

