-- ==== Sys2Proof/Laws/Banks.lean ====
section
/-! SUPPORT. What the operations over banks do: read after write, the frame of a write, sizes. -/

namespace Sys2Proof.Machine

/-! ### Entries of a bank -/

@[simp] theorem Bank.length_setEntry (bk : Bank) (i : Nat) (e : Entry) :
    (bk.setEntry i e).entries.length = bk.entries.length := by
  simp [Bank.setEntry]

@[simp] theorem Bank.length_setAddr (bk : Bank) (i : Nat) (a : Word) :
    (bk.setAddr i a).entries.length = bk.entries.length := by
  simp [Bank.setAddr]

theorem Bank.entry_setEntry_self (bk : Bank) (i : Nat) (e : Entry) (h : i < bk.entries.length) :
    (bk.setEntry i e).entry i = e := by
  simp [Bank.setEntry, Bank.entry, h]

theorem Bank.entry_setEntry_ne (bk : Bank) (i j : Nat) (e : Entry) (h : j ≠ i) :
    (bk.setEntry i e).entry j = bk.entry j := by
  simp [Bank.setEntry, Bank.entry, Ne.symm h]

/-- An entry past the end of the bank takes no value. -/
theorem Bank.setEntry_of_length_le (bk : Bank) (i : Nat) (e : Entry) (h : bk.entries.length ≤ i) :
    bk.setEntry i e = bk := by
  simp [Bank.setEntry, List.set_eq_of_length_le h]

/-- All a write of an entry can do. -/
theorem Bank.entry_setEntry (bk : Bank) (i j : Nat) (e : Entry) :
    (bk.setEntry i e).entry j = if j = i ∧ i < bk.entries.length then e else bk.entry j := by
  by_cases hj : j = i
  · subst hj
    by_cases hl : j < bk.entries.length
    · simp [hl, Bank.entry_setEntry_self bk j e hl]
    · simp [hl, Bank.setEntry_of_length_le bk j e (by omega)]
  · simp [hj, Bank.entry_setEntry_ne bk i j e hj]

/-- The write of a word keeps every configuration byte. -/
@[simp] theorem Bank.cfg_setAddr (bk : Bank) (i j : Nat) (a : Word) : (bk.setAddr i a).cfg j = bk.cfg j := by
  simp only [Bank.cfg, Bank.setAddr, Bank.entry_setEntry]
  split
  · next h => simp [h.1]
  · rfl

@[simp] theorem Bank.mode_setAddr (bk : Bank) (i j : Nat) (a : Word) : (bk.setAddr i a).mode j = bk.mode j := by
  have h := Bank.cfg_setAddr bk i j a
  simp only [Bank.cfg] at h
  simp [Bank.mode, Entry.mode, h]

theorem Bank.addr_setAddr_ne (bk : Bank) (i j : Nat) (a : Word) (h : j ≠ i) :
    (bk.setAddr i a).addr j = bk.addr j := by
  simp [Bank.addr, Bank.setAddr, Bank.entry_setEntry_ne _ _ _ _ h]

theorem Bank.addr_setAddr_self (bk : Bank) (i : Nat) (a : Word) (h : i < bk.entries.length) :
    (bk.setAddr i a).addr i = a := by
  simp [Bank.addr, Bank.setAddr, Bank.entry_setEntry_self _ _ _ h]

/-- An entry past the end of the bank reads as the empty entry. -/
theorem Bank.entry_of_length_le (bk : Bank) (i : Nat) (h : bk.entries.length ≤ i) : bk.entry i = Entry.empty := by
  simp [Bank.entry, List.getElem?_eq_none h]

/-- Two banks of one size with equal entries are equal. -/
theorem Bank.ext_entry {bk bk' : Bank} (hl : bk.entries.length = bk'.entries.length)
    (h : ∀ i, i < bk.entries.length → bk.entry i = bk'.entry i) : bk = bk' := by
  obtain ⟨es⟩ := bk
  obtain ⟨es'⟩ := bk'
  congr 1
  refine List.ext_getElem hl fun i h1 h2 => ?_
  have := h i h1
  simpa [Bank.entry, h1, h2] using this

/-! ### Banks of a state -/

@[simp] theorem State.length_setBank (s : State) (b : Nat) (bk : Bank) :
    (s.setBank b bk).banks.length = s.banks.length := by
  simp

theorem State.bank_setBank_self (s : State) (b : Nat) (bk : Bank) (h : b < s.banks.length) :
    (s.setBank b bk).bank b = bk := by
  simp [State.bank, h]

theorem State.bank_setBank_ne (s : State) (b c : Nat) (bk : Bank) (h : c ≠ b) :
    (s.setBank b bk).bank c = s.bank c := by
  simp [State.bank, Ne.symm h]

theorem State.setBank_of_length_le (s : State) (b : Nat) (bk : Bank) (h : s.banks.length ≤ b) :
    s.setBank b bk = s := by
  simp [State.setBank, List.set_eq_of_length_le h]

/-- The bank a state shows depends on its `banks` alone. -/
theorem State.bank_congr {s t : State} (h : t.banks = s.banks) (b : Nat) : t.bank b = s.bank b := by
  simp [State.bank, h]

@[simp] theorem State.bank_finish (s : State) (f : Option Failure) (b : Nat) : (s.finish f).bank b = s.bank b := rfl

@[simp] theorem State.bank_finishDecode (s : State) (d : Decoded) (b : Nat) :
    (s.finishDecode d).bank b = s.bank b := rfl

@[simp] theorem State.bank_setCsr (s : State) (c : CsrFile) (ds : List Bool) (b : Nat) :
    (s.setCsr c ds).bank b = s.bank b := rfl

@[simp] theorem State.bank_setDraws (s : State) (ds : List Bool) (b : Nat) : (s.setDraws ds).bank b = s.bank b := rfl

@[simp] theorem State.bank_samplePorts (s : State) (x y z : Word) (b : Nat) :
    (s.samplePorts x y z).bank b = s.bank b := rfl

/-- The bank a launch gives. -/
theorem launch_bank (p : Params) (c : CsrFile) (r : BitVec 3) (out : Decoded) (ins : List Input) (ds : List Bool)
    (b : Nat) (h : b < p.numBanks) : (State.launch p c r out ins ds).bank b = Bank.empty p.N := by
  simp [State.launch, State.bank, emptyBanks, h]

@[simp] theorem Bank.entry_empty (n i : Nat) : (Bank.empty n).entry i = Entry.empty := by
  simp only [Bank.entry, Bank.empty, List.getD_eq_getElem?_getD, List.getElem?_replicate]
  split <;> rfl

/-- In a state of the right shape a bank that exists has N entries. -/
theorem State.ShapeOk.bank_length {s : State} (h : s.ShapeOk) {b : Nat} (hb : b < s.params.numBanks) :
    (s.bank b).entries.length = s.params.N := by
  have hb' : b < s.banks.length := by rw [h.2.1]; exact hb
  have : s.bank b = s.banks[b] := by simp [State.bank, hb']
  rw [this]
  exact h.2.2.1 _ (List.getElem_mem hb')

theorem State.ShapeOk.bank_lt {s : State} (h : s.ShapeOk) {b : Nat} (hb : b < s.params.numBanks) :
    b < s.banks.length := by rw [h.2.1]; exact hb

/-- What holds of a bank holds of it after another bank, or a bank with the property, is written. -/
theorem State.bank_setBank_of {P : Bank → Prop} (s : State) (b c : Nat) (bk : Bank) (h : P (s.bank c))
    (hb : c = b → P bk) : P ((s.setBank b bk).bank c) := by
  by_cases hcb : c = b
  · subst hcb
    by_cases hl : c < s.banks.length
    · rw [State.bank_setBank_self _ _ _ hl]; exact hb rfl
    · rw [State.setBank_of_length_le _ _ _ (by omega)]; exact h
  · rw [State.bank_setBank_ne _ _ _ _ hcb]; exact h

end Sys2Proof.Machine
end

