-- ==== Sys2Proof/Laws/CommandWord.lean ====
section
/-! SUPPORT. The fields of an encoded command word (30_encoding.md R60), each read back. -/

namespace Sys2Proof

variable (b : Nat) (q : Posture) (p : Nibble) (i : Nat) (op : BitVec 4)

@[simp] theorem opField_commandWord : opField (commandWord b q p i op) = op.toNat := by
  unfold opField
  congr 1
  apply BitVec.eq_of_getLsbD_eq
  intro j hj
  simp only [commandWord, BitVec.getLsbD_extractLsb', BitVec.getLsbD_append]
  interval_cases j <;> simp

@[simp] theorem entryField_commandWord : entryField (commandWord b q p i op) = i % 256 := by
  have : (commandWord b q p i op).extractLsb' 4 8 = BitVec.ofNat 8 i := by
    apply BitVec.eq_of_getLsbD_eq
    intro j hj
    simp only [commandWord, BitVec.getLsbD_extractLsb', BitVec.getLsbD_append]
    interval_cases j <;> simp
  simp [entryField, this]

@[simp] theorem permField_commandWord : permField (commandWord b q p i op) = p := by
  apply BitVec.eq_of_getLsbD_eq
  intro j hj
  simp only [permField, commandWord, BitVec.getLsbD_extractLsb', BitVec.getLsbD_append]
  interval_cases j <;> simp

@[simp] theorem postureField_commandWord : postureField (commandWord b q p i op) = q := by
  apply BitVec.eq_of_getLsbD_eq
  intro j hj
  simp only [postureField, commandWord, BitVec.getLsbD_extractLsb', BitVec.getLsbD_append]
  interval_cases j <;> simp

@[simp] theorem reservedBit_commandWord : reservedBit (commandWord b q p i op) = 0 := by
  apply BitVec.eq_of_getLsbD_eq
  intro j hj
  simp only [reservedBit, commandWord, BitVec.getLsbD_extractLsb', BitVec.getLsbD_append]
  interval_cases j; simp

@[simp] theorem bankField_commandWord : bankField (commandWord b q p i op) = b % 16 := by
  have : (commandWord b q p i op).extractLsb' 20 4 = BitVec.ofNat 4 b := by
    apply BitVec.eq_of_getLsbD_eq
    intro j hj
    simp only [commandWord, BitVec.getLsbD_extractLsb', BitVec.getLsbD_append]
    interval_cases j <;> simp
  simp [bankField, this]

@[simp] theorem reservedHigh_commandWord : reservedHigh (commandWord b q p i op) = 0 := by
  apply BitVec.eq_of_getLsbD_eq
  intro j hj
  simp only [reservedHigh, commandWord, BitVec.getLsbD_extractLsb', BitVec.getLsbD_append]
  interval_cases j <;> simp

/-- The used bits of a configure command's word (R60, R73). -/
theorem commandWord_and_cfg : commandWord b q p i op &&& 0xFFF8FFFF = commandWord b 0 p i op := by
  apply BitVec.eq_of_getLsbD_eq
  intro j hj
  simp only [commandWord, BitVec.getLsbD_and, BitVec.getLsbD_append]
  interval_cases j <;> simp

/-- The used bits of a DECODE word. -/
theorem commandWord_and_decode : commandWord b q p i op &&& 0xFFF80FFF = commandWord b 0 0 i op := by
  apply BitVec.eq_of_getLsbD_eq
  intro j hj
  simp only [commandWord, BitVec.getLsbD_and, BitVec.getLsbD_append]
  interval_cases j <;> simp

/-- The used bits of a COMMIT or READ word. -/
theorem commandWord_and_bank : commandWord b q p i op &&& 0xFFF8000F = commandWord b 0 0 0 op := by
  apply BitVec.eq_of_getLsbD_eq
  intro j hj
  simp only [commandWord, BitVec.getLsbD_and, BitVec.getLsbD_append]
  interval_cases j <;> simp

/-- The used bits of a VERIFY word. -/
theorem commandWord_and_verify : commandWord b q p i op &&& 0xFFFF000F = commandWord b q 0 0 op := by
  apply BitVec.eq_of_getLsbD_eq
  intro j hj
  simp only [commandWord, BitVec.getLsbD_and, BitVec.getLsbD_append]
  interval_cases j <;> simp

/-- The bits the table's mask keeps: the reserved ones and OP (R79). -/
theorem tableMask_toNat (w : Word) :
    (w &&& 0xFF08000F).toNat = (reservedHigh w).toNat * 2 ^ 24 + (reservedBit w).toNat * 2 ^ 19 + opField w := by
  have e : w &&& 0xFF08000F = reservedHigh w ++ 0#4 ++ reservedBit w ++ 0#15 ++ w.extractLsb' 0 4 := by
    apply BitVec.eq_of_getLsbD_eq
    intro j hj
    simp only [reservedHigh, reservedBit, BitVec.getLsbD_and, BitVec.getLsbD_append, BitVec.getLsbD_extractLsb']
    interval_cases j <;> simp
  have h1 := (reservedHigh w).isLt
  have h2 := (reservedBit w).isLt
  have h3 := (w.extractLsb' 0 4).isLt
  rw [e]
  simp only [BitVec.toNat_append, opField]
  rw [← Nat.shiftLeft_add_eq_or_of_lt h3, ← Nat.shiftLeft_add_eq_or_of_lt (by decide : (0#15).toNat < 2 ^ 15),
    ← Nat.shiftLeft_add_eq_or_of_lt h2, ← Nat.shiftLeft_add_eq_or_of_lt (by decide : (0#4).toNat < 2 ^ 4)]
  simp only [Nat.shiftLeft_eq, BitVec.toNat_ofNat]
  omega

/-- A word with its reserved bits 0 is built from its fields. -/
theorem commandWord_of_fields {w : Word} (h1 : reservedHigh w = 0) (h2 : reservedBit w = 0) :
    commandWord (bankField w) (postureField w) (permField w) (entryField w) (w.extractLsb' 0 4) = w := by
  have b1 : BitVec.ofNat 4 (bankField w) = w.extractLsb' 20 4 := by
    unfold bankField; simp only [BitVec.ofNat_toNat, BitVec.setWidth_eq]
  have e1 : BitVec.ofNat 8 (entryField w) = w.extractLsb' 4 8 := by
    unfold entryField; simp only [BitVec.ofNat_toNat, BitVec.setWidth_eq]
  have r1 : (0#8) = w.extractLsb' 24 8 := h1.symm
  have r2 : (0#1) = w.extractLsb' 19 1 := h2.symm
  rw [commandWord, b1, e1, r1, r2]
  apply BitVec.eq_of_getLsbD_eq
  intro j hj
  simp only [postureField, permField, BitVec.getLsbD_append, BitVec.getLsbD_extractLsb']
  interval_cases j <;> simp

/-- A word whose reserved bits are 0 is decoded by its OP. -/
theorem decode_eq_decodeOp {w : Word} (h1 : reservedHigh w = 0) (h2 : reservedBit w = 0) : decode w = decodeOp w := by
  simp [decode, h1, h2]

/-- A word that decodes has its reserved bits 0 and OP below 8 (R72). -/
theorem decode_ok {w : Word} {c : Instr} (h : decode w = .ok c) :
    reservedHigh w = 0 ∧ reservedBit w = 0 ∧ opField w < 8 ∧ decodeOp w = .ok c := by
  unfold decode at h
  split at h
  · simp at h
  · next h1 =>
    split at h
    · simp at h
    · next h2 =>
      refine ⟨by simpa using h1, by simpa using h2, ?_, h⟩
      by_contra h8
      unfold decodeOp at h
      split at h <;> first | omega | simp at h

end Sys2Proof
end

