-- ==== Sys2Proof/Laws/Commands.lean ====
section
/-! SUPPORT. What the checks find, and all that the end of a command can do: one spec lemma for each shared operation. -/

namespace Sys2Proof.Machine

/-! ### Checks -/

theorem firstFailure_eq_none {cs : List Check} : firstFailure cs = none ↔ ∀ c ∈ cs, c.1 = false := by
  induction cs with
  | nil => simp [firstFailure]
  | cons c cs ih =>
    obtain ⟨bad, f⟩ := c
    cases bad <;> simp [firstFailure, ih]

/-- A failure found is that of a check that fails while none before it does. -/
theorem firstFailure_eq_some {cs : List Check} {f : Failure} :
    firstFailure cs = some f ↔ ∃ as bs, cs = as ++ (true, f) :: bs ∧ ∀ c ∈ as, c.1 = false := by
  induction cs with
  | nil => simp [firstFailure]
  | cons c cs ih =>
    obtain ⟨bad, g⟩ := c
    cases bad
    · simp only [firstFailure, Bool.false_eq_true, if_false, ih]
      constructor
      · rintro ⟨as, bs, rfl, h⟩
        exact ⟨(false, g) :: as, bs, rfl, by simpa using h⟩
      · rintro ⟨as, bs, h, hf⟩
        cases as with
        | nil => simp at h
        | cons a as =>
          simp only [List.cons_append, List.cons.injEq] at h
          exact ⟨as, bs, h.2, fun c hc => hf c (by simp [hc])⟩
    · simp only [firstFailure, if_true, Option.some.injEq]
      constructor
      · rintro rfl
        exact ⟨[], cs, rfl, by simp⟩
      · rintro ⟨as, bs, h, hf⟩
        cases as with
        | nil =>
          simp only [List.nil_append, List.cons.injEq, Prod.mk.injEq] at h
          exact h.1.2
        | cons a as =>
          simp only [List.cons_append, List.cons.injEq] at h
          have := hf a (by simp)
          rw [← h.1] at this
          simp at this

/-- A failure found is one of the listed codes. -/
theorem firstFailure_mem {cs : List Check} {f : Failure} (h : firstFailure cs = some f) : ∃ c ∈ cs, c.2 = f := by
  obtain ⟨as, bs, rfl, -⟩ := firstFailure_eq_some.1 h
  exact ⟨(true, f), by simp, rfl⟩

theorem firstFailure_bankCheck (p : Params) (b : Nat) (cs : List Check) :
    firstFailure (bankCheck p b :: cs) = if p.numBanks ≤ b then some .badArg else firstFailure cs := by
  simp [bankCheck, firstFailure]

/-! ### Result codes -/

@[simp] theorem resultBits_eq_zero {f : Option Failure} : resultBits f = 0#3 ↔ f = none := by
  rcases f with _ | f
  · simp [resultBits, okBits]
  · cases f <;> simp [resultBits, Failure.bits]

@[simp] theorem resultBits_eq_one {f : Option Failure} : resultBits f = 1#3 ↔ f = some .badArg := by
  rcases f with _ | f
  · simp [resultBits, okBits]
  · cases f <;> simp [resultBits, Failure.bits]

@[simp] theorem resultBits_eq_two {f : Option Failure} : resultBits f = 2#3 ↔ f = some .badRegion := by
  rcases f with _ | f
  · simp [resultBits, okBits]
  · cases f <;> simp [resultBits, Failure.bits]

@[simp] theorem resultBits_eq_three {f : Option Failure} : resultBits f = 3#3 ↔ f = some .conflict := by
  rcases f with _ | f
  · simp [resultBits, okBits]
  · cases f <;> simp [resultBits, Failure.bits]

@[simp] theorem resultBits_eq_four {f : Option Failure} : resultBits f = 4#3 ↔ f = some .mismatch := by
  rcases f with _ | f
  · simp [resultBits, okBits]
  · cases f <;> simp [resultBits, Failure.bits]

@[simp] theorem resultBits_eq_five {f : Option Failure} : resultBits f = 5#3 ↔ f = some .error := by
  rcases f with _ | f
  · simp [resultBits, okBits]
  · cases f <;> simp [resultBits, Failure.bits]

theorem resultBits_lt (f : Option Failure) : (resultBits f).toNat < 6 := by
  rcases f with _ | f
  · simp [resultBits, okBits]
  · cases f <;> simp [resultBits, Failure.bits]

/-! ### The end of a command -/

theorem SameOutside.refl (s : State) : SameOutside s s := ⟨rfl, rfl, rfl, rfl, rfl, rfl, rfl⟩

theorem sameOutside_finish (s : State) (f : Option Failure) : SameOutside s (s.finish f) :=
  ⟨rfl, rfl, rfl, rfl, rfl, rfl, rfl⟩

theorem sameOutside_finishDecode (s : State) (d : Decoded) : SameOutside s (s.finishDecode d) :=
  ⟨rfl, rfl, rfl, rfl, rfl, rfl, rfl⟩

/-- All that the end of a writing command can do. -/
theorem finishWrite_cases (s : State) (b : Nat) (cs : List Check) (bk : Bank) :
    (firstFailure cs = none ∧ s.finishWrite b cs bk = (s.setBank b bk).finish none) ∨
    (∃ f, firstFailure cs = some f ∧ s.finishWrite b cs bk = s.finish (some f)) := by
  unfold State.finishWrite
  split
  · next h => exact .inl ⟨h, rfl⟩
  · next f h => exact .inr ⟨f, h, rfl⟩

@[simp] theorem finishWrite_result (s : State) (b : Nat) (cs : List Check) (bk : Bank) :
    (s.finishWrite b cs bk).result = resultBits (firstFailure cs) := by
  rcases finishWrite_cases s b cs bk with ⟨h, e⟩ | ⟨f, h, e⟩ <;> rw [h, e] <;> rfl

theorem sameOutside_finishWrite (s : State) (b : Nat) (cs : List Check) (bk : Bank) :
    SameOutside s (s.finishWrite b cs bk) := by
  rcases finishWrite_cases s b cs bk with ⟨-, e⟩ | ⟨f, -, e⟩ <;> rw [e] <;>
    exact ⟨rfl, rfl, rfl, rfl, rfl, rfl, rfl⟩

@[simp] theorem finishWrite_params (s : State) (b : Nat) (cs : List Check) (bk : Bank) :
    (s.finishWrite b cs bk).params = s.params := (sameOutside_finishWrite s b cs bk).1

theorem finishWrite_banks (s : State) (b : Nat) (cs : List Check) (bk : Bank) :
    (s.finishWrite b cs bk).banks = if firstFailure cs = none then s.banks.set b bk else s.banks := by
  rcases finishWrite_cases s b cs bk with ⟨h, e⟩ | ⟨f, h, e⟩ <;> simp [h, e]

/-- The named bank after a writing command: the staged one, or the old one. -/
theorem finishWrite_bank (s : State) (b : Nat) (cs : List Check) (bk : Bank) (hb : b < s.banks.length) :
    (s.finishWrite b cs bk).bank b = if firstFailure cs = none then bk else s.bank b := by
  rcases finishWrite_cases s b cs bk with ⟨h, e⟩ | ⟨f, h, e⟩
  · simp [h, e, State.bank_setBank_self s b bk hb]
  · simp [h, e]

theorem sameOtherBanks_finishWrite (s : State) (b : Nat) (cs : List Check) (bk : Bank) :
    SameOtherBanks b s (s.finishWrite b cs bk) := by
  rcases finishWrite_cases s b cs bk with ⟨-, e⟩ | ⟨f, -, e⟩ <;> rw [e]
  · exact ⟨by simp, fun c hc => State.bank_setBank_ne s b c bk hc⟩
  · exact ⟨rfl, fun _ _ => rfl⟩

/-! ### What `exec` answers -/

theorem exec_cfgOff (b i : Nat) (perm : Nibble) (s : State) :
    exec (.cfgOff b i perm) s = .next (s.finishWrite b
      (bankCheck s.params b :: cfgOffChecks s.params (s.bank b) i perm s.portStart s.portEnd)
      (cfgOffBank (s.bank b) i perm s.portStart)) := rfl

theorem exec_cfgTor (b i : Nat) (perm : Nibble) (s : State) :
    exec (.cfgTor b i perm) s = .next (s.finishWrite b
      (bankCheck s.params b :: cfgTorChecks s.params (s.bank b) i perm s.portStart s.portEnd)
      (cfgTorBank (s.bank b) i perm s.portStart s.portEnd)) := rfl

theorem exec_cfgNa4 (b i : Nat) (perm : Nibble) (s : State) :
    exec (.cfgNa4 b i perm) s = .next (s.finishWrite b
      (bankCheck s.params b :: cfgNa4Checks s.params (s.bank b) i perm s.portStart s.portEnd)
      (cfgNa4Bank (s.bank b) i perm s.portStart)) := rfl

theorem exec_cfgNapot (b i : Nat) (perm : Nibble) (s : State) :
    exec (.cfgNapot b i perm) s = .next (s.finishWrite b
      (bankCheck s.params b :: cfgNapotChecks s.params (s.bank b) i perm s.portStart s.portEnd)
      (cfgNapotBank (s.bank b) i perm s.portStart s.portEnd)) := rfl

theorem exec_decode (b i : Nat) (s : State) : exec (.decode b i) s = .next (s.decoded b i) := rfl

theorem exec_commit (b : Nat) (s : State) : exec (.commit b) s = .next (s.committed b) := rfl

theorem exec_read (b : Nat) (s : State) : exec (.read b) s = .next (s.readInto b) := rfl

theorem exec_verify (b : Nat) (q : Posture) (s : State) : exec (.verify b q) s = .next (s.verified b q) := rfl

/-- All that DECODE can do. -/
theorem decoded_cases (s : State) (b i : Nat) :
    (s.params.numBanks ≤ b ∧ s.decoded b i = s.finish (some .badArg)) ∨
    (b < s.params.numBanks ∧
      ((∃ d, decodeEntry s.params (s.bank b) i = .ok d ∧ s.decoded b i = s.finishDecode d) ∨
       (∃ f, decodeEntry s.params (s.bank b) i = .error f ∧ s.decoded b i = s.finish (some f)))) := by
  unfold State.decoded
  rw [firstFailure_bankCheck]
  by_cases h : s.params.numBanks ≤ b
  · simp [h]
  · right
    refine ⟨by omega, ?_⟩
    simp only [h, if_false, firstFailure]
    cases decodeEntry s.params (s.bank b) i with
    | ok d => exact .inl ⟨d, rfl, rfl⟩
    | error f => exact .inr ⟨f, rfl, rfl⟩

/-- All that COMMIT can do. -/
theorem committed_cases (s : State) (b : Nat) :
    (s.params.numBanks ≤ b ∧ s.committed b = s.finish (some .badArg)) ∨
    (b < s.params.numBanks ∧
      s.committed b = (s.setCsr (s.commitRun b).csr (s.commitRun b).draws).finish
        (if (s.commitRun b).failed then some .error else none)) := by
  unfold State.committed
  rw [firstFailure_bankCheck]
  by_cases h : s.params.numBanks ≤ b
  · simp [h]
  · right; simp only [h, if_false, firstFailure]; exact ⟨by omega, trivial⟩

/-- All that READ can do. -/
theorem readInto_cases (s : State) (b : Nat) :
    (s.params.numBanks ≤ b ∧ s.readInto b = s.finish (some .badArg)) ∨
    (b < s.params.numBanks ∧
      ((∃ ws, s.readRun.1 = some ws ∧
          s.readInto b = ((s.setDraws s.readRun.2).setBank b (bankOfWords s.params.N ws)).finish none) ∨
       (s.readRun.1 = none ∧ s.readInto b = (s.setDraws s.readRun.2).finish (some .error)))) := by
  unfold State.readInto
  rw [firstFailure_bankCheck]
  by_cases h : s.params.numBanks ≤ b
  · simp [h]
  · right
    refine ⟨by omega, ?_⟩
    simp only [h, if_false, firstFailure]
    rcases s.readRun with ⟨_ | ws, ds⟩
    · exact .inr ⟨rfl, rfl⟩
    · exact .inl ⟨ws, rfl, rfl⟩

/-- All that VERIFY can do. -/
theorem verified_cases (s : State) (b : Nat) (q : Posture) :
    (s.params.numBanks ≤ b ∧ s.verified b q = s.finish (some .badArg)) ∨
    (b < s.params.numBanks ∧
      s.verified b q = (s.setDraws (s.draws.drop (verifyRegs s.params).length)).finish
        (firstFailure (verifyChecks s.params.N s.verifyReads (s.bank b) q))) := by
  unfold State.verified
  rw [firstFailure_bankCheck]
  by_cases h : s.params.numBanks ≤ b
  · simp [h]
  · right; simp only [h, if_false, firstFailure]; exact ⟨by omega, trivial⟩

end Sys2Proof.Machine
end

