-- ==== Sys2Proof/Laws/Words.lean ====
section
/-! SUPPORT. The arithmetic of configuration bytes and address words (30_encoding.md): bytes from permissions, NAPOT words and
their inverse, lanes. -/

namespace Sys2Proof.Machine

/-! ### Configuration bytes -/

@[simp] theorem cfgMode_cfgByte (p : Nibble) (m : Mode) : cfgMode (cfgByte p m) = m := by
  revert p; cases m <;> decide

@[simp] theorem permOf_cfgByte (p : Nibble) (m : Mode) : permOf (cfgByte p m) = p := by
  revert p; cases m <;> decide

/-- A byte made from a permission is valid exactly when the permission is not reserved (R66). -/
@[simp] theorem cfgValid_cfgByte (p : Nibble) (m : Mode) : cfgValid (cfgByte p m) = !permReserved p := by
  revert p; cases m <;> decide

@[simp] theorem mode_mk_cfgByte (p : Nibble) (m : Mode) (a : Word) :
    Entry.mode { cfg := cfgByte p m, addr := a } = m := by
  simp [Entry.mode]

/-- The reserved permissions are the four values of R64. -/
theorem permReserved_iff (p : Nibble) : permReserved p = true ↔ p = 0x2 ∨ p = 0x6 ∨ p = 0xA ∨ p = 0xE := by
  revert p; decide

theorem cfgValid_iff (c : Byte) : cfgValid c = true ↔ ¬ CfgByteBad c := by
  unfold CfgByteBad
  revert c; decide

theorem permBitsOf_permOf (c : Byte) : PermBitsOf (permOf c) c := by
  unfold PermBitsOf
  revert c; decide

/-! ### Words and byte addresses -/

theorem addrWord_toNat (a : Word) : (addrWord a).toNat = a.toNat / 4 := by
  simp [addrWord, Nat.shiftRight_eq_div_pow]

theorem addrWord_lt (a : Word) : (addrWord a).toNat < 2 ^ 30 := by
  rw [addrWord_toNat]; have := a.isLt; omega

/-- A byte address on 4 comes back from its word (R44). -/
theorem byteAddr_addrWord (a : Word) (h : a.toNat % 4 = 0) : byteAddr (addrWord a) = a.toNat := by
  rw [byteAddr, addrWord_toNat]; omega

theorem grain_mod_four (p : Params) : grain p % 4 = 0 := by
  rw [grain, pow_add]; omega

theorem mod_four_of_mod_grain {p : Params} {x : Nat} (h : x % grain p = 0) : x % 4 = 0 := by
  have hd : 4 ∣ grain p := Nat.dvd_of_mod_eq_zero (grain_mod_four p)
  exact Nat.mod_eq_zero_of_dvd (hd.trans (Nat.dvd_of_mod_eq_zero h))

/-! ### Powers of two -/

theorem isPow2_iff (x : Nat) : isPow2 x = true ↔ ∃ n, x = 2 ^ n := by
  simp only [isPow2, decide_eq_true_eq]
  constructor
  · rintro ⟨h0, h⟩
    exact (Nat.and_sub_one_eq_zero_iff_isPowerOfTwo h0).1 h
  · rintro ⟨n, rfl⟩
    have h0 : (2 : Nat) ^ n ≠ 0 := by positivity
    exact ⟨h0, (Nat.and_sub_one_eq_zero_iff_isPowerOfTwo h0).2 ⟨n, rfl⟩⟩

/-- The ones of a NAPOT word, for a region of length `2^(k+3)` (R69). -/
theorem napotK_eq {s e : Word} {k : Nat} (h : e.toNat = s.toNat + 2 ^ (k + 3)) : napotK s e = k := by
  simp [napotK, regionLen, h, Nat.log2_two_pow]

theorem pow_lt_of_region {s e : Word} {k : Nat} (h : e.toNat = s.toNat + 2 ^ (k + 3)) : k ≤ 28 := by
  have he := e.isLt
  have : (2 : Nat) ^ (k + 3) < 2 ^ 32 := by omega
  have := (Nat.pow_lt_pow_iff_right (by omega : 1 < 2)).1 this
  omega

theorem lowOnes_toNat {k : Nat} (hk : k ≤ 32) : (lowOnes k).toNat = 2 ^ k - 1 := by
  have : (2 : Nat) ^ k ≤ 2 ^ 32 := Nat.pow_le_pow_right (by omega) hk
  rw [lowOnes, BitVec.toNat_ofNat, Nat.mod_eq_of_lt]
  have := Nat.pos_of_ne_zero (n := 2 ^ k) (by positivity)
  omega

/-- A multiple of `2^n` and a number below `2^n` have no bit in common. -/
theorem mul_pow_or (m n x : Nat) (h : x < 2 ^ n) : m * 2 ^ n ||| x = m * 2 ^ n + x := by
  rw [Nat.mul_comm, Nat.two_pow_add_eq_or_of_lt h]

/-- The NAPOT word of a region is its start over 4 with the low `k` bits set (R69, R103). -/
theorem napotWord_toNat {s e : Word} {k : Nat} (h : e.toNat = s.toNat + 2 ^ (k + 3)) (ha : s.toNat % 2 ^ (k + 3) = 0) :
    (napotWord s e).toNat = s.toNat / 4 + (2 ^ k - 1) := by
  have hk := pow_lt_of_region h
  obtain ⟨m, hm⟩ := Nat.dvd_of_mod_eq_zero ha
  have hm' : s.toNat / 4 = (2 * m) * 2 ^ k := by
    rw [hm, pow_add]
    have : 2 ^ k * 2 ^ 3 * m = 4 * ((2 * m) * 2 ^ k) := by ring
    rw [this]; omega
  rw [napotWord, BitVec.toNat_or, addrWord_toNat, napotK_eq h, lowOnes_toNat (by omega), hm']
  apply mul_pow_or
  have := Nat.pos_of_ne_zero (n := 2 ^ k) (by positivity)
  omega

/-! ### Trailing ones -/

/-- `m` above a zero bit above `k` ones has `k` trailing ones. -/
theorem trailingOnes_eq (fuel k m : Nat) (h : k < fuel) : trailingOnes fuel (m * 2 ^ (k + 1) + (2 ^ k - 1)) = k := by
  induction k generalizing fuel with
  | zero =>
    obtain ⟨fuel, rfl⟩ := Nat.exists_eq_succ_of_ne_zero (by omega : fuel ≠ 0)
    have : ¬ (m * 2 ^ (0 + 1) + (2 ^ 0 - 1)) % 2 = 1 := by omega
    simp only [trailingOnes, this, if_false]
  | succ k ih =>
    obtain ⟨fuel, rfl⟩ := Nat.exists_eq_succ_of_ne_zero (by omega : fuel ≠ 0)
    have hp : 0 < 2 ^ k := by positivity
    have e : m * 2 ^ (k + 1 + 1) + (2 ^ (k + 1) - 1) = 2 * (m * 2 ^ (k + 1) + (2 ^ k - 1)) + 1 := by
      have h1 : m * 2 ^ (k + 1 + 1) = 2 * (m * 2 ^ (k + 1)) := by ring
      have h2 : 2 ^ (k + 1) = 2 * 2 ^ k := by ring
      omega
    have h1 : (2 * (m * 2 ^ (k + 1) + (2 ^ k - 1)) + 1) % 2 = 1 := by omega
    have h2 : (2 * (m * 2 ^ (k + 1) + (2 ^ k - 1)) + 1) / 2 = m * 2 ^ (k + 1) + (2 ^ k - 1) := by omega
    rw [e]
    simp only [trailingOnes, h1, if_true, h2, ih fuel (by omega)]

/-- The trailing ones of a word (R18). -/
theorem ctz1_eq {a : Word} {k m : Nat} (hk : k < 32) (h : a.toNat = m * 2 ^ (k + 1) + (2 ^ k - 1)) : ctz1 a = k := by
  rw [ctz1, h, trailingOnes_eq 32 k m hk]

/-- With at least `n` low ones there are at least `n` trailing ones. -/
theorem le_trailingOnes (fuel n x : Nat) (hn : n ≤ fuel) (h : x % 2 ^ n = 2 ^ n - 1) : n ≤ trailingOnes fuel x := by
  induction n generalizing fuel x with
  | zero => omega
  | succ n ih =>
    obtain ⟨fuel, rfl⟩ := Nat.exists_eq_succ_of_ne_zero (by omega : fuel ≠ 0)
    have hp : 0 < 2 ^ n := by positivity
    have e : 2 ^ (n + 1) = 2 * 2 ^ n := by ring
    have hx : x % 2 = 1 := by
      have := Nat.mod_mul_right_mod x 2 (2 ^ n)
      rw [← e, h] at this
      omega
    have hd : x / 2 % 2 ^ n = 2 ^ n - 1 := by
      have := Nat.mod_mul_right_div_self x 2 (2 ^ n)
      rw [← e, h] at this
      omega
    have := ih fuel (x / 2) (by omega) hd
    simp only [trailingOnes, hx, if_true]
    omega

/-- The start and the length a NAPOT word denotes (R70, R125). -/
theorem napotStart_eq {a : Word} {k m : Nat} (hk : k < 32) (h : a.toNat = m * 2 ^ (k + 1) + (2 ^ k - 1)) :
    napotStart a = m * 2 ^ (k + 3) := by
  have hp : 0 < 2 ^ k := by positivity
  have hlow : (2 ^ k - 1 : Nat) < 2 ^ (k + 1) := by rw [pow_succ]; omega
  have key : (a &&& ~~~ lowOnes k).toNat = m * 2 ^ (k + 1) := by
    have e : lowOnes k = BitVec.ofNat 32 (2 ^ k - 1) := rfl
    apply Nat.eq_of_testBit_eq
    intro j
    rw [← BitVec.getLsbD, BitVec.getLsbD_and, BitVec.getLsbD_not, BitVec.getLsbD, h, e, BitVec.getLsbD_ofNat]
    rw [Nat.mul_comm, Nat.testBit_two_pow_mul_add _ hlow, Nat.testBit_two_pow_sub_one, Nat.testBit_two_pow_mul]
    by_cases hj : j < k
    · have h1 : j < k + 1 := by omega
      have h2 : ¬ k + 1 ≤ j := by omega
      simp [hj, h1, h2]
    · by_cases hj' : j < k + 1
      · have h2 : ¬ k + 1 ≤ j := by omega
        simp [hj, hj', h2]
      · have h2 : k + 1 ≤ j := by omega
        by_cases h32 : j < 32
        · simp [hj, hj', h2, h32]
        · have : (m.testBit (j - (k + 1))) = false := by
            apply Nat.testBit_lt_two_pow
            have ha := a.isLt
            have h3 : m * 2 ^ (k + 1) < 2 ^ 32 := by omega
            have h4 : 2 ^ 32 ≤ 2 ^ (j - (k + 1)) * 2 ^ (k + 1) := by
              rw [← pow_add]; exact Nat.pow_le_pow_right (by omega) (by omega)
            exact Nat.lt_of_mul_lt_mul_right (lt_of_lt_of_le h3 h4)
          simp [this]
          omega
  rw [napotStart, ctz1_eq hk h, byteAddr, key]
  ring

theorem napotLen_eq {a : Word} {k m : Nat} (hk : k < 32) (h : a.toNat = m * 2 ^ (k + 1) + (2 ^ k - 1)) :
    napotLen a = 2 ^ (k + 3) := by
  rw [napotLen, ctz1_eq hk h]

/-- The shape of the word CFG_NAPOT writes (R69): `m` above a zero bit above `k` ones. -/
theorem napotWord_shape {s e : Word} {k : Nat} (h : e.toNat = s.toNat + 2 ^ (k + 3)) (ha : s.toNat % 2 ^ (k + 3) = 0) :
    (napotWord s e).toNat = (s.toNat / 2 ^ (k + 3)) * 2 ^ (k + 1) + (2 ^ k - 1) := by
  rw [napotWord_toNat h ha]
  obtain ⟨m, hm⟩ := Nat.dvd_of_mod_eq_zero ha
  have h1 : s.toNat / 2 ^ (k + 3) = m := by rw [hm]; exact Nat.mul_div_cancel_left m (by positivity)
  have h2 : s.toNat / 4 = m * 2 ^ (k + 1) := by
    have : s.toNat = 4 * (m * 2 ^ (k + 1)) := by rw [hm]; ring
    omega
  rw [h1, h2]

/-- A NAPOT size and alignment that pass are those of a power-of-two region (R101). -/
theorem napot_checks_iff (p : Params) (s e : Word) :
    (napotBadSize s e = false ∧ napotMisaligned s e = false ∧ napotBelowGrain p s e = false) ↔
      NapotRegion p s e := by
  simp only [napotBadSize, napotMisaligned, napotBelowGrain, Bool.or_eq_false_iff, decide_eq_false_iff_not,
    Bool.not_eq_false', isPow2_iff]
  simp only [regionLen, NapotRegion, grain]
  constructor
  · rintro ⟨⟨h8, n, hn⟩, hal, hg⟩
    rw [hn] at h8 hal hg
    have h3 : 3 ≤ n := by
      by_contra hlt
      have : (2 : Nat) ^ n ≤ 2 ^ 2 := Nat.pow_le_pow_right (by omega) (by omega)
      omega
    refine ⟨n, h3, hn, by simpa using hal, fun hG => ?_⟩
    by_contra hlt
    exact hg ⟨hG, .inr (Nat.pow_lt_pow_right (by omega) (by omega))⟩
  · rintro ⟨n, h3, hn, hal, hg⟩
    rw [hn]
    have : (2 : Nat) ^ 3 ≤ 2 ^ n := Nat.pow_le_pow_right (by omega) h3
    refine ⟨⟨by omega, n, rfl⟩, by simpa using hal, ?_⟩
    rintro ⟨hG, h | h⟩
    · have hd : 2 ^ (2 + p.G) ∣ 2 ^ n := pow_dvd_pow 2 (hg hG)
      exact h (Nat.mod_eq_zero_of_dvd (hd.trans (Nat.dvd_of_mod_eq_zero hal)))
    · have := Nat.pow_le_pow_right (n := 2) (by omega) (hg hG)
      omega

/-! ### Lanes -/

/-- A lane of four packed bytes (R50). -/
theorem unpack_packBytes (c0 c1 c2 c3 : Byte) :
    unpack (packBytes c0 c1 c2 c3) 0 = c0 ∧ unpack (packBytes c0 c1 c2 c3) 1 = c1 ∧
    unpack (packBytes c0 c1 c2 c3) 2 = c2 ∧ unpack (packBytes c0 c1 c2 c3) 3 = c3 := by
  refine ⟨?_, ?_, ?_, ?_⟩ <;>
  · apply BitVec.eq_of_getLsbD_eq
    intro i hi
    simp only [unpack, packBytes, BitVec.getLsbD_extractLsb', BitVec.getLsbD_append]
    interval_cases i <;> simp

/-- Two configuration registers with equal lanes are equal (R50). -/
theorem word_eq_of_lanes {x y : Word} (h : ∀ k, k < 4 → unpack x k = unpack y k) : x = y := by
  apply BitVec.eq_of_getLsbD_eq
  intro j hj
  have := congrArg (fun b => b.getLsbD (j % 8)) (h (j / 8) (by omega))
  simp only [unpack, BitVec.getLsbD_extractLsb'] at this
  have hm : j % 8 < 8 := Nat.mod_lt _ (by omega)
  simpa [hm, Nat.div_add_mod] using this

/-- The byte address of the word of `a` is `a` with its low two bits dropped (R44, R128). -/
theorem ofNat_byteAddr_addrWord (a : Word) : BitVec.ofNat 32 (byteAddr (addrWord a)) = a &&& 0xFFFFFFFC := by
  have e : BitVec.ofNat 32 (byteAddr (addrWord a)) = (a >>> 2) <<< 2 := by
    apply BitVec.eq_of_toNat_eq
    simp [byteAddr, addrWord, Nat.shiftRight_eq_div_pow, Nat.shiftLeft_eq]
  rw [e]
  apply BitVec.eq_of_getLsbD_eq
  intro j hj
  simp only [BitVec.getLsbD_and, BitVec.getLsbD_shiftLeft, BitVec.getLsbD_ushiftRight]
  interval_cases j <;> simp

end Sys2Proof.Machine
end

