-- ==== Sys2Proof/Laws/Configure.lean ====
section
/-! SUPPORT. The four configure commands in one view: what their checks find, and all that their staged banks change. -/

namespace Sys2Proof.Machine

/-- The checks of a configure command after the bank test. -/
def confChecks (c : Instr) (p : Params) (bk : Bank) (s e : Word) : List Check :=
  match c with
  | .cfgOff _ i perm => cfgOffChecks p bk i perm s e
  | .cfgTor _ i perm => cfgTorChecks p bk i perm s e
  | .cfgNa4 _ i perm => cfgNa4Checks p bk i perm s e
  | .cfgNapot _ i perm => cfgNapotChecks p bk i perm s e
  | .decode _ _ => []
  | .commit _ => []
  | .read _ => []
  | .verify _ _ => []

/-- The bank a configure command stages. -/
def confBank (c : Instr) (bk : Bank) (s e : Word) : Bank :=
  match c with
  | .cfgOff _ i perm => cfgOffBank bk i perm s
  | .cfgTor _ i perm => cfgTorBank bk i perm s e
  | .cfgNa4 _ i perm => cfgNa4Bank bk i perm s
  | .cfgNapot _ i perm => cfgNapotBank bk i perm s e
  | .decode _ _ => bk
  | .commit _ => bk
  | .read _ => bk
  | .verify _ _ => bk

/-- Every configure command is its checks and its staged bank. -/
theorem exec_configure (c : Instr) (h : c.isConfigure = true) (s : State) :
    exec c s = .next (s.finishWrite c.bank
      (bankCheck s.params c.bank :: confChecks c s.params (s.bank c.bank) s.portStart s.portEnd)
      (confBank c (s.bank c.bank) s.portStart s.portEnd)) := by
  cases c with
  | cfgOff b i p => rfl
  | cfgTor b i p => rfl
  | cfgNa4 b i p => rfl
  | cfgNapot b i p => rfl
  | decode b i => simp [Instr.isConfigure] at h
  | commit b => simp [Instr.isConfigure] at h
  | read b => simp [Instr.isConfigure] at h
  | verify b q => simp [Instr.isConfigure] at h

/-- All that a configure command can do: every check passes and its bank is written, or none is. -/
theorem configure_cases {c : Instr} (h : c.isConfigure = true) {s t : State} (ht : exec c s = .next t) :
    (c.bank < s.params.numBanks ∧
      firstFailure (confChecks c s.params (s.bank c.bank) s.portStart s.portEnd) = none ∧
      t = (s.setBank c.bank (confBank c (s.bank c.bank) s.portStart s.portEnd)).finish none) ∨
    (∃ f, t = s.finish (some f)) := by
  rw [exec_configure c h] at ht
  cases ht
  rcases finishWrite_cases s c.bank
    (bankCheck s.params c.bank :: confChecks c s.params (s.bank c.bank) s.portStart s.portEnd)
    (confBank c (s.bank c.bank) s.portStart s.portEnd) with ⟨h1, e⟩ | ⟨f, -, e⟩
  · rw [firstFailure_bankCheck] at h1
    split at h1
    · simp at h1
    · exact .inl ⟨by omega, h1, e⟩
  · exact .inr ⟨f, e⟩

/-! ### What the checks find -/

/-- The causes of BadArg beside the bank (R84, R85). -/
def CommonBad (p : Params) (i : Nat) (perm : Nibble) (s e : Word) : Prop :=
  p.N ≤ i ∨ e.toNat < s.toNat ∨ permReserved perm = true

/-- The common checks in front of others: BadArg, or what the others find. -/
theorem firstFailure_cfgCommon (p : Params) (i : Nat) (perm : Nibble) (s e : Word) (cs : List Check) :
    (CommonBad p i perm s e ∧ firstFailure (cfgCommon p i perm s e ++ cs) = some .badArg) ∨
    (¬ CommonBad p i perm s e ∧ firstFailure (cfgCommon p i perm s e ++ cs) = firstFailure cs) := by
  unfold CommonBad cfgCommon
  by_cases h1 : p.N ≤ i
  · left; simp [firstFailure, h1]
  · by_cases h2 : e.toNat < s.toNat
    · left; simp [firstFailure, h1, h2]
    · cases h3 : permReserved perm
      · right; simp [firstFailure, h1, h2]
      · left; simp [firstFailure, h1, h2]

theorem badArgCause_iff (s : State) (b i : Nat) (perm : Nibble) :
    BadArgCause s b i perm ↔ s.params.numBanks ≤ b ∨ CommonBad s.params i perm s.portStart s.portEnd := by
  rw [BadArgCause, CommonBad, permReserved_iff]

/-- CFG_OFF passes its checks exactly here (R87, R107). -/
theorem cfgOff_passes (p : Params) (bk : Bank) (i : Nat) (perm : Nibble) (s e : Word) :
    firstFailure (cfgOffChecks p bk i perm s e) = none ↔
      ¬ CommonBad p i perm s e ∧ s = e ∧ baseHolderConflict p bk i (addrWord s) = false := by
  rw [cfgOffChecks]
  rcases firstFailure_cfgCommon p i perm s e
    [(decide (s ≠ e), .badRegion), (baseHolderConflict p bk i (addrWord s), .conflict)] with ⟨h, e'⟩ | ⟨h, e'⟩
  · rw [e']; simp [h]
  · rw [e', firstFailure_eq_none]; simp [h]

/-- CFG_TOR passes its checks exactly here (R90). -/
theorem cfgTor_passes (p : Params) (bk : Bank) (i : Nat) (perm : Nibble) (s e : Word) :
    firstFailure (cfgTorChecks p bk i perm s e) = none ↔
      ¬ CommonBad p i perm s e ∧ torMisaligned p s e = false ∧ torChainConflict bk i s = false ∧
      baseHolderConflict p bk i (addrWord e) = false := by
  rw [cfgTorChecks]
  rcases firstFailure_cfgCommon p i perm s e
    [(torMisaligned p s e, .badRegion), (torChainConflict bk i s, .conflict),
     (baseHolderConflict p bk i (addrWord e), .conflict)] with ⟨h, e'⟩ | ⟨h, e'⟩
  · rw [e']; simp [h]
  · rw [e', firstFailure_eq_none]; simp [h]

/-- CFG_NA4 passes its checks exactly here (R97). -/
theorem cfgNa4_passes (p : Params) (bk : Bank) (i : Nat) (perm : Nibble) (s e : Word) :
    firstFailure (cfgNa4Checks p bk i perm s e) = none ↔
      ¬ CommonBad p i perm s e ∧ p.G = 0 ∧ regionLen s e = 4 ∧ s.toNat % 4 = 0 ∧ naSlotConflict p bk i = false := by
  rw [cfgNa4Checks]
  rcases firstFailure_cfgCommon p i perm s e
    [(decide (p.G ≠ 0), .badRegion), (decide (regionLen s e ≠ 4), .badRegion),
     (decide (s.toNat % 4 ≠ 0), .badRegion), (naSlotConflict p bk i, .conflict)] with ⟨h, e'⟩ | ⟨h, e'⟩
  · rw [e']; simp [h]
  · rw [e', firstFailure_eq_none]; simp [h]

/-- CFG_NAPOT passes its checks exactly here (R100). -/
theorem cfgNapot_passes (p : Params) (bk : Bank) (i : Nat) (perm : Nibble) (s e : Word) :
    firstFailure (cfgNapotChecks p bk i perm s e) = none ↔
      ¬ CommonBad p i perm s e ∧ NapotRegion p s e ∧ naSlotConflict p bk i = false := by
  rw [cfgNapotChecks]
  rcases firstFailure_cfgCommon p i perm s e
    [(napotBadSize s e, .badRegion), (napotMisaligned s e, .badRegion), (napotBelowGrain p s e, .badRegion),
     (naSlotConflict p bk i, .conflict)] with ⟨h, e'⟩ | ⟨h, e'⟩
  · rw [e']; simp [h]
  · rw [e', firstFailure_eq_none, ← napot_checks_iff]; simp [h, and_assoc]

theorem torMisaligned_eq_false (p : Params) (s e : Word) :
    torMisaligned p s e = false ↔ s.toNat % grain p = 0 ∧ e.toNat % grain p = 0 := by
  simp [torMisaligned]

theorem baseHolderConflict_eq_false (p : Params) (bk : Bank) (i : Nat) (a : Word) :
    baseHolderConflict p bk i a = false ↔ (i + 1 < p.N → bk.mode (i + 1) = .tor → bk.addr i = a) := by
  simp [baseHolderConflict]

theorem naSlotConflict_eq_false (p : Params) (bk : Bank) (i : Nat) :
    naSlotConflict p bk i = false ↔ (i + 1 < p.N → bk.mode (i + 1) ≠ .tor) := by
  simp [naSlotConflict]

/-- The chain checks of CFG_TOR pass exactly here (R91, R93, R95). -/
theorem torChainConflict_eq_false (bk : Bank) (i : Nat) (s : Word) :
    torChainConflict bk i s = false ↔
      (i = 0 → s = 0) ∧
      (0 < i → bk.mode (i - 1) = .off ∨ (bk.mode (i - 1) = .tor ∧ bk.addr (i - 1) = addrWord s)) := by
  unfold torChainConflict
  by_cases h : i = 0
  · simp [h]
  · have hp : 0 < i := by omega
    cases hm : bk.mode (i - 1) <;> simp [h, hp]

theorem baseRefused_iff (s : State) (b i : Nat) (w : Word) :
    BaseRefused s b i w ↔ torChainConflict (s.bank b) i w = true := by
  unfold BaseRefused torChainConflict addrWord
  by_cases h : i = 0
  · simp [h]
  · have hp : 0 < i := by omega
    cases hm : (s.bank b).mode (i - 1) <;> simp [h, hp]

theorem changesTorBase_iff (s : State) (b i : Nat) (a : Word) :
    ChangesTorBase s b i a ↔ baseHolderConflict s.params (s.bank b) i a = true := by
  simp [ChangesTorBase, baseHolderConflict]

theorem belowTor_iff (s : State) (b i : Nat) :
    BelowTor s b i ↔ naSlotConflict s.params (s.bank b) i = true := by
  simp [BelowTor, naSlotConflict]

/-! ### What the staged banks change -/

/-- The entry that the configure command `c` makes of its operands. -/
def confEntry (c : Instr) (s e : Word) : Entry :=
  match c with
  | .cfgOff _ _ perm => { cfg := cfgByte perm .off, addr := addrWord s }
  | .cfgTor _ _ perm => { cfg := cfgByte perm .tor, addr := addrWord e }
  | .cfgNa4 _ _ perm => { cfg := cfgByte perm .na4, addr := addrWord s }
  | .cfgNapot _ _ perm => { cfg := cfgByte perm .napot, addr := napotWord s e }
  | .decode _ _ => Entry.empty
  | .commit _ => Entry.empty
  | .read _ => Entry.empty
  | .verify _ _ => Entry.empty

/-- The bank CFG_TOR starts from differs in one word, that of an OFF entry below (R94). -/
theorem torBaseBank_entry (bk : Bank) (i j : Nat) (s : Word) :
    (torBaseBank bk i s).entry j =
      if j + 1 = i ∧ bk.mode j = .off ∧ j < bk.entries.length then { cfg := bk.cfg j, addr := addrWord s }
      else bk.entry j := by
  unfold torBaseBank
  by_cases h : 0 < i ∧ bk.mode (i - 1) = .off
  · rw [if_pos h, Bank.setAddr, Bank.entry_setEntry]
    by_cases hj : j = i - 1
    · subst hj
      have : i - 1 + 1 = i := by omega
      simp [this, h.2]
    · have : ¬ j + 1 = i := by omega
      simp [hj, this]
  · rw [if_neg h]
    by_cases hj : j + 1 = i
    · have : i - 1 = j := by omega
      rw [this] at h
      have hm : bk.mode j ≠ .off := fun hm => h ⟨by omega, hm⟩
      simp [hm]
    · simp [hj]

@[simp] theorem torBaseBank_length (bk : Bank) (i : Nat) (s : Word) :
    (torBaseBank bk i s).entries.length = bk.entries.length := by
  unfold torBaseBank; split <;> simp

@[simp] theorem torBaseBank_cfg (bk : Bank) (i j : Nat) (s : Word) : (torBaseBank bk i s).cfg j = bk.cfg j := by
  unfold torBaseBank; split <;> simp

@[simp] theorem torBaseBank_mode (bk : Bank) (i j : Nat) (s : Word) : (torBaseBank bk i s).mode j = bk.mode j := by
  unfold torBaseBank; split <;> simp

@[simp] theorem confBank_length (c : Instr) (bk : Bank) (s e : Word) :
    (confBank c bk s e).entries.length = bk.entries.length := by
  cases c <;> simp [confBank, cfgOffBank, cfgTorBank, cfgNa4Bank, cfgNapotBank]

/-- The entry a configure command names takes its new words. -/
theorem confBank_entry_self (c : Instr) (bk : Bank) (s e : Word) (i : Nat) (h : c.isConfigure = true)
    (hi : c.entry? = some i) (hl : i < bk.entries.length) : (confBank c bk s e).entry i = confEntry c s e := by
  cases c <;> simp_all [Instr.isConfigure, Instr.entry?, confBank, confEntry, cfgOffBank, cfgTorBank, cfgNa4Bank,
    cfgNapotBank, Bank.entry_setEntry_self]

/-- Every other entry keeps its configuration byte (R86, R94). -/
theorem confBank_cfg_ne (c : Instr) (bk : Bank) (s e : Word) (j : Nat) (hj : c.entry? ≠ some j) :
    (confBank c bk s e).cfg j = bk.cfg j := by
  cases c with
  | cfgOff b i p => exact congrArg Entry.cfg (Bank.entry_setEntry_ne _ _ _ _ (by simpa [Instr.entry?, eq_comm] using hj))
  | cfgNa4 b i p => exact congrArg Entry.cfg (Bank.entry_setEntry_ne _ _ _ _ (by simpa [Instr.entry?, eq_comm] using hj))
  | cfgNapot b i p =>
    exact congrArg Entry.cfg (Bank.entry_setEntry_ne _ _ _ _ (by simpa [Instr.entry?, eq_comm] using hj))
  | cfgTor b i p =>
    have h := Bank.entry_setEntry_ne (torBaseBank bk i s) i j { cfg := cfgByte p .tor, addr := addrWord e }
      (by simpa [Instr.entry?, eq_comm] using hj)
    exact (congrArg Entry.cfg h).trans (torBaseBank_cfg bk i j s)
  | decode b i => rfl
  | commit b => rfl
  | read b => rfl
  | verify b q => rfl

theorem mode_eq_of_cfg_eq {bk bk' : Bank} {j : Nat} (h : bk'.cfg j = bk.cfg j) : bk'.mode j = bk.mode j := by
  simp only [Bank.cfg] at h
  simp [Bank.mode, Entry.mode, h]

/-- Every other entry keeps its mode. -/
theorem confBank_mode_ne (c : Instr) (bk : Bank) (s e : Word) (j : Nat) (hj : c.entry? ≠ some j) :
    (confBank c bk s e).mode j = bk.mode j :=
  mode_eq_of_cfg_eq (confBank_cfg_ne c bk s e j hj)

/-- Every other entry keeps its address word, but for an OFF entry below the entry of CFG_TOR, which takes the base
(R94). -/
theorem confBank_addr_ne (c : Instr) (bk : Bank) (s e : Word) (j : Nat) (hj : c.entry? ≠ some j) :
    (confBank c bk s e).addr j = bk.addr j ∨
    ((∃ b p, c = .cfgTor b (j + 1) p) ∧ bk.mode j = .off ∧ (confBank c bk s e).addr j = addrWord s) := by
  cases c with
  | cfgOff b i p =>
    exact .inl (congrArg Entry.addr (Bank.entry_setEntry_ne bk i j _ (by simpa [Instr.entry?, eq_comm] using hj)))
  | cfgNa4 b i p =>
    exact .inl (congrArg Entry.addr (Bank.entry_setEntry_ne bk i j _ (by simpa [Instr.entry?, eq_comm] using hj)))
  | cfgNapot b i p =>
    exact .inl (congrArg Entry.addr (Bank.entry_setEntry_ne bk i j _ (by simpa [Instr.entry?, eq_comm] using hj)))
  | cfgTor b i p =>
    have h := Bank.entry_setEntry_ne (torBaseBank bk i s) i j { cfg := cfgByte p .tor, addr := addrWord e }
      (by simpa [Instr.entry?, eq_comm] using hj)
    have h2 := (congrArg Entry.addr h).trans (congrArg Entry.addr (torBaseBank_entry bk i j s))
    by_cases hc : j + 1 = i ∧ bk.mode j = .off ∧ j < bk.entries.length
    · rw [if_pos hc] at h2
      obtain ⟨rfl, hm, -⟩ := hc
      exact .inr ⟨⟨b, p, rfl⟩, hm, h2⟩
    · rw [if_neg hc] at h2
      exact .inl h2
  | decode b i => exact .inl rfl
  | commit b => exact .inl rfl
  | read b => exact .inl rfl
  | verify b q => exact .inl rfl

/-- A configure command that returned Ok passed every check and wrote its bank. -/
theorem configure_ok {c : Instr} (hc : c.isConfigure = true) {s t : State} (ht : exec c s = .next t) (hr : t.result = 0) :
    c.bank < s.params.numBanks ∧
      firstFailure (confChecks c s.params (s.bank c.bank) s.portStart s.portEnd) = none ∧
      t = (s.setBank c.bank (confBank c (s.bank c.bank) s.portStart s.portEnd)).finish none := by
  rcases configure_cases hc ht with h | ⟨f, rfl⟩
  · exact h
  · have h : resultBits (some f) = 0#3 := hr
    cases resultBits_eq_zero.1 h

/-- A configure command that passes its checks names an entry of the bank (R84). -/
theorem entry_lt_of_passes {c : Instr} {p : Params} {bk : Bank} {s e : Word} {i : Nat} (hc : c.isConfigure = true)
    (hi : c.entry? = some i) (hf : firstFailure (confChecks c p bk s e) = none) : i < p.N := by
  by_contra h
  have hN : p.N ≤ i := by omega
  cases c with
  | cfgOff b j perm => cases hi; exact ((cfgOff_passes ..).1 hf).1 (.inl hN)
  | cfgTor b j perm => cases hi; exact ((cfgTor_passes ..).1 hf).1 (.inl hN)
  | cfgNa4 b j perm => cases hi; exact ((cfgNa4_passes ..).1 hf).1 (.inl hN)
  | cfgNapot b j perm => cases hi; exact ((cfgNapot_passes ..).1 hf).1 (.inl hN)
  | decode b j => cases hc
  | commit b => cases hc
  | read b => cases hc
  | verify b q => cases hc

/-- The entry above is TOR: a configure command that passes its checks leaves the base word and a mode the chain allows
(R106, R107, R109). -/
theorem confBank_base_of_tor_above {c : Instr} {p : Params} {bk : Bank} {s e : Word} {i : Nat} (hc : c.isConfigure = true)
    (hi : c.entry? = some i) (hl : i < bk.entries.length) (hf : firstFailure (confChecks c p bk s e) = none)
    (hn : i + 1 < p.N) (hm : bk.mode (i + 1) = .tor) :
    (confBank c bk s e).addr i = bk.addr i ∧
      ((confBank c bk s e).mode i = .off ∨ (confBank c bk s e).mode i = .tor) := by
  have he := confBank_entry_self c bk s e i hc hi hl
  rw [Bank.addr, Bank.mode, he]
  cases c with
  | cfgOff b j perm =>
    cases hi
    have h3 := ((cfgOff_passes ..).1 hf).2.2
    exact ⟨((baseHolderConflict_eq_false ..).1 h3 hn hm).symm, .inl (by simp [confEntry])⟩
  | cfgTor b j perm =>
    cases hi
    have h3 := ((cfgTor_passes ..).1 hf).2.2.2
    exact ⟨((baseHolderConflict_eq_false ..).1 h3 hn hm).symm, .inr (by simp [confEntry])⟩
  | cfgNa4 b j perm =>
    cases hi
    exact absurd hm ((naSlotConflict_eq_false ..).1 ((cfgNa4_passes ..).1 hf).2.2.2.2 hn)
  | cfgNapot b j perm =>
    cases hi
    exact absurd hm ((naSlotConflict_eq_false ..).1 ((cfgNapot_passes ..).1 hf).2.2 hn)
  | decode b j => cases hc
  | commit b => cases hc
  | read b => cases hc
  | verify b q => cases hc

end Sys2Proof.Machine
end

