-- ==== Sys2Proof/Laws/CsrPort.lean ====
section
/-! SUPPORT. What the CSR port does (20_memory.md R46 to R49): the registers of the file, runs of writes and of reads, with and
without a failed access. -/

namespace Sys2Proof.Machine

/-! ### Registers of the file -/

/-- Register `r` exists in the file (R31). -/
def CsrHas (c : CsrFile) : CsrReg → Prop
  | .pmpcfg j => j < c.pmpcfg.length
  | .pmpaddr i => i < c.pmpaddr.length
  | .mseccfg => True

theorem csrGet_csrSet_self (c : CsrFile) (r : CsrReg) (v : Word) (h : CsrHas c r) : csrGet (csrSet c r v) r = v := by
  cases r <;> simp_all [csrGet, csrSet, CsrHas]

theorem csrGet_csrSet_ne (c : CsrFile) (r r' : CsrReg) (v : Word) (h : r' ≠ r) :
    csrGet (csrSet c r v) r' = csrGet c r' := by
  cases r <;> cases r' <;> simp_all [csrGet, csrSet, Ne.symm]

@[simp] theorem csrSet_pmpcfg_length (c : CsrFile) (r : CsrReg) (v : Word) :
    (csrSet c r v).pmpcfg.length = c.pmpcfg.length := by
  cases r <;> simp [csrSet]

@[simp] theorem csrSet_pmpaddr_length (c : CsrFile) (r : CsrReg) (v : Word) :
    (csrSet c r v).pmpaddr.length = c.pmpaddr.length := by
  cases r <;> simp [csrSet]

theorem csrSet_mseccfg (c : CsrFile) (r : CsrReg) (v : Word) (h : r ≠ .mseccfg) :
    (csrSet c r v).mseccfg = c.mseccfg := by
  cases r <;> simp_all [csrSet]

@[simp] theorem legalize_reference (p : Params) (h : p.backend = .reference) (r : CsrReg) (v : Word) (c : CsrFile) :
    legalize p r v c = v := by
  simp [legalize, h]

@[simp] theorem view_reference (p : Params) (h : p.backend = .reference) (r : CsrReg) (c : CsrFile) :
    view p r c = csrGet c r := by
  simp [view, h]

/-! ### Draws -/

theorem drawFails_eq (ds : List Bool) : drawFails ds = ds.getD 0 false := by
  cases ds <;> rfl

theorem getD_tail (ds : List Bool) (k : Nat) : ds.tail.getD k false = ds.getD (k + 1) false := by
  cases ds <;> simp

/-! ### Runs of writes -/

/-- When no write fails, all are done in their order. -/
theorem csrWrites_ok (p : Params) (ws : List (CsrReg × Word)) (ds : List Bool) (c : CsrFile)
    (h : ∀ k, k < ws.length → ds.getD k false = false) :
    csrWrites p ws ds c = { csr := csrAfter p c ws, draws := ds.drop ws.length, failed := false } := by
  induction ws generalizing ds c with
  | nil => simp [csrWrites, csrAfter]
  | cons w ws ih =>
    obtain ⟨r, v⟩ := w
    have h0 : drawFails ds = false := by rw [drawFails_eq]; exact h 0 (by simp)
    have ht : ∀ k, k < ws.length → ds.tail.getD k false = false := fun k hk => by
      rw [getD_tail]; exact h (k + 1) (by simpa using hk)
    simp [csrWrites, h0, ih _ _ ht, csrAfter]

/-- When write `n` is the first to fail, the writes before it are done and no more (R132). -/
theorem csrWrites_fail (p : Params) (ws : List (CsrReg × Word)) (ds : List Bool) (c : CsrFile) (n : Nat)
    (hn : n < ws.length) (h : ∀ k, k < n → ds.getD k false = false) (hf : ds.getD n false = true) :
    csrWrites p ws ds c = { csr := csrAfter p c (ws.take n), draws := ds.drop (n + 1), failed := true } := by
  induction ws generalizing ds c n with
  | nil => simp at hn
  | cons w ws ih =>
    obtain ⟨r, v⟩ := w
    cases n with
    | zero =>
      have h0 : drawFails ds = true := by rw [drawFails_eq]; exact hf
      simp [csrWrites, h0, csrAfter]
    | succ n =>
      have h0 : drawFails ds = false := by rw [drawFails_eq]; exact h 0 (by simp)
      have := ih ds.tail (csrSet c r (legalize p r v c)) n (by simpa using hn)
        (fun k hk => by rw [getD_tail]; exact h (k + 1) (by omega)) (by rw [getD_tail]; exact hf)
      simp [csrWrites, h0, this, csrAfter]

/-- Writes keep the sizes of the file. -/
theorem csrWrites_lengths (p : Params) (ws : List (CsrReg × Word)) (ds : List Bool) (c : CsrFile) :
    (csrWrites p ws ds c).csr.pmpcfg.length = c.pmpcfg.length ∧
    (csrWrites p ws ds c).csr.pmpaddr.length = c.pmpaddr.length := by
  induction ws generalizing ds c with
  | nil => simp [csrWrites]
  | cons w ws ih =>
    obtain ⟨r, v⟩ := w
    simp only [csrWrites]
    split
    · simp
    · simpa using ih ds.tail (csrSet c r (legalize p r v c))

/-- Writes to other registers keep mseccfg (R34). -/
theorem csrWrites_mseccfg (p : Params) (ws : List (CsrReg × Word)) (ds : List Bool) (c : CsrFile)
    (h : ∀ w ∈ ws, w.1 ≠ .mseccfg) : (csrWrites p ws ds c).csr.mseccfg = c.mseccfg := by
  induction ws generalizing ds c with
  | nil => simp [csrWrites]
  | cons w ws ih =>
    obtain ⟨r, v⟩ := w
    simp only [csrWrites]
    split
    · rfl
    · rw [ih _ _ fun w hw => h w (by simp [hw]), csrSet_mseccfg _ _ _ (h (r, v) (by simp))]

theorem commitWrites_ne_mseccfg (p : Params) (bk : Bank) : ∀ w ∈ commitWrites p bk, w.1 ≠ .mseccfg := by
  simp only [commitWrites, List.mem_append, List.mem_map, List.mem_range]
  rintro w (⟨i, -, rfl⟩ | ⟨j, -, rfl⟩) <;> simp

@[simp] theorem commitWrites_length (p : Params) (bk : Bank) : (commitWrites p bk).length = bankAccesses p := by
  simp [commitWrites, bankAccesses]

/-- With the identity `Legalize`, a register that is written once holds the value written, and one that is not written what
it held. -/
theorem csrGet_csrAfter (p : Params) (hp : p.backend = .reference) (ws : List (CsrReg × Word)) (c : CsrFile) (r : CsrReg)
    (hr : CsrHas c r) (hn : (ws.map (·.1)).Nodup) :
    csrGet (csrAfter p c ws) r = (((ws.find? (·.1 = r)).map (·.2)).getD (csrGet c r)) := by
  induction ws generalizing c with
  | nil => simp [csrAfter]
  | cons w ws ih =>
    obtain ⟨r', v⟩ := w
    have hr' : CsrHas (csrSet c r' v) r := by cases r <;> simp_all [CsrHas]
    simp only [List.map_cons, List.nodup_cons] at hn
    have step : csrAfter p c ((r', v) :: ws) = csrAfter p (csrSet c r' v) ws := by simp [csrAfter, hp]
    rw [step, ih _ hr' hn.2]
    by_cases h : r' = r
    · subst h
      have : ws.find? (fun w => decide (w.1 = r')) = none := by
        simp only [List.find?_eq_none, decide_eq_true_eq]
        intro w hw e
        exact hn.1 (by rw [← e]; exact List.mem_map_of_mem hw)
      simp [this, csrGet_csrSet_self _ _ _ hr]
    · simp [h, csrGet_csrSet_ne _ _ _ _ (Ne.symm h)]

/-! ### Runs of reads -/

theorem csrReads_ok (p : Params) (rs : List CsrReg) (ds : List Bool) (c : CsrFile)
    (h : ∀ k, k < rs.length → ds.getD k false = false) :
    csrReads p rs ds c = (some (rs.map (view p · c)), ds.drop rs.length) := by
  induction rs generalizing ds with
  | nil => simp [csrReads]
  | cons r rs ih =>
    have h0 : drawFails ds = false := by rw [drawFails_eq]; exact h 0 (by simp)
    have ht : ∀ k, k < rs.length → ds.tail.getD k false = false := fun k hk => by
      rw [getD_tail]; exact h (k + 1) (by simpa using hk)
    simp [csrReads, h0, ih _ ht]

theorem csrReads_fail (p : Params) (rs : List CsrReg) (ds : List Bool) (c : CsrFile)
    (h : ∃ k, k < rs.length ∧ ds.getD k false = true) : (csrReads p rs ds c).1 = none := by
  induction rs generalizing ds with
  | nil => simp at h
  | cons r rs ih =>
    obtain ⟨k, hk, hf⟩ := h
    by_cases h0 : drawFails ds = true
    · simp [csrReads, h0]
    · have hk0 : k ≠ 0 := by rintro rfl; exact h0 (by rw [drawFails_eq]; exact hf)
      obtain ⟨k, rfl⟩ := Nat.exists_eq_succ_of_ne_zero hk0
      have := ih ds.tail ⟨k, by simpa using hk, by rw [getD_tail]; exact hf⟩
      simp only [csrReads, h0]
      rcases hc : csrReads p rs ds.tail c with ⟨_ | vs, ds'⟩
      · simp
      · rw [hc] at this; simp at this

/-- When read `n` is the first to fail, no later one is made (R135). -/
theorem csrReads_fail_first (p : Params) (rs : List CsrReg) (ds : List Bool) (c : CsrFile) (n : Nat) (hn : n < rs.length)
    (h : ∀ k, k < n → ds.getD k false = false) (hf : ds.getD n false = true) :
    csrReads p rs ds c = (none, ds.drop (n + 1)) := by
  induction rs generalizing ds n with
  | nil => simp at hn
  | cons r rs ih =>
    cases n with
    | zero =>
      have h0 : drawFails ds = true := by rw [drawFails_eq]; exact hf
      simp [csrReads, h0]
    | succ n =>
      have h0 : drawFails ds = false := by rw [drawFails_eq]; exact h 0 (by simp)
      have := ih ds.tail n (by simpa using hn) (fun k hk => by rw [getD_tail]; exact h (k + 1) (by omega))
        (by rw [getD_tail]; exact hf)
      simp [csrReads, h0, this]

theorem csrReads_some (p : Params) (rs : List CsrReg) (ds : List Bool) (c : CsrFile) (ws : List Word)
    (h : (csrReads p rs ds c).1 = some ws) : ws = rs.map (view p · c) := by
  by_cases hf : ∃ k, k < rs.length ∧ ds.getD k false = true
  · rw [csrReads_fail p rs ds c hf] at h; simp at h
  · rw [csrReads_ok p rs ds c (by simpa using hf)] at h
    simpa using h.symm

/-- When no read fails, VERIFY's reads are the views of the registers. -/
theorem csrReadAll_ok (p : Params) (rs : List CsrReg) (ds : List Bool) (c : CsrFile)
    (h : ∀ k, k < rs.length → ds.getD k false = false) :
    csrReadAll p rs ds c = rs.map (fun r => some (view p r c)) := by
  induction rs generalizing ds with
  | nil => simp [csrReadAll]
  | cons r rs ih =>
    have h0 : drawFails ds = false := by rw [drawFails_eq]; exact h 0 (by simp)
    have ht : ∀ k, k < rs.length → ds.tail.getD k false = false := fun k hk => by
      rw [getD_tail]; exact h (k + 1) (by simpa using hk)
    simp [csrReadAll, h0, ih _ ht]

/-- A read of VERIFY is missing exactly when an access fails. -/
theorem csrReadAll_any_isNone (p : Params) (rs : List CsrReg) (ds : List Bool) (c : CsrFile) :
    (csrReadAll p rs ds c).any (·.isNone) = true ↔ ∃ k, k < rs.length ∧ ds.getD k false = true := by
  induction rs generalizing ds with
  | nil => simp [csrReadAll]
  | cons r rs ih =>
    simp only [csrReadAll, List.any_cons, Bool.or_eq_true, ih, List.length_cons]
    constructor
    · rintro (h | ⟨k, hk, hf⟩)
      · refine ⟨0, by omega, ?_⟩
        rw [← drawFails_eq]
        by_contra h0
        simp [h0] at h
      · exact ⟨k + 1, by omega, by rw [← getD_tail]; exact hf⟩
    · rintro ⟨k, hk, hf⟩
      cases k with
      | zero => left; rw [drawFails_eq, hf]; rfl
      | succ k => right; exact ⟨k, by omega, by rw [getD_tail]; exact hf⟩

@[simp] theorem bankRegs_length (p : Params) : (bankRegs p).length = bankAccesses p := by
  simp [bankRegs, addrRegs, cfgRegs, bankAccesses]

@[simp] theorem verifyRegs_length (p : Params) : (verifyRegs p).length = bankAccesses p + 1 := by
  simp [verifyRegs]

/-- The entry that the words shown by the registers denote (R135, R137). -/
theorem entryOfWords_views (p : Params) (f : CsrReg → Word) (rest : List Word) (i : Nat) (hi : i < p.N)
    (h4 : p.N % 4 = 0) :
    entryOfWords p.N ((bankRegs p).map f ++ rest) i =
      { cfg := unpack (f (.pmpcfg (i / 4))) (i % 4), addr := f (.pmpaddr i) } := by
  have hj : i / 4 < p.N / 4 := by omega
  have h1 : ((bankRegs p).map f ++ rest).getD i 0 = f (.pmpaddr i) := by
    simp [bankRegs, addrRegs, List.getElem?_append_left, hi]
  have h2 : ((bankRegs p).map f ++ rest).getD (p.N + i / 4) 0 = f (.pmpcfg (i / 4)) := by
    rw [List.getD_eq_getElem?_getD, List.getElem?_append_left (by simp [bankAccesses]; omega)]
    simp [bankRegs, addrRegs, cfgRegs, hj]
  simp only [entryOfWords, h1, h2]

/-- A bank of `n` entries made entry by entry. -/
theorem bankOfWords_entry (n : Nat) (ws : List Word) (i : Nat) (hi : i < n) :
    (bankOfWords n ws).entry i = entryOfWords n ws i := by
  simp [bankOfWords, Bank.entry, hi]

@[simp] theorem bankOfWords_length (n : Nat) (ws : List Word) : (bankOfWords n ws).entries.length = n := by
  simp [bankOfWords]

/-- COMMIT writes no register twice (R130). -/
theorem commitWrites_nodup (p : Params) (bk : Bank) : ((commitWrites p bk).map (·.1)).Nodup := by
  simp only [commitWrites, List.map_append, List.map_map]
  refine List.Nodup.append ?_ ?_ ?_
  · exact List.nodup_range.map (fun a b h => by simpa using h)
  · exact List.nodup_range.map (fun a b h => by simpa using h)
  · intro r h1 h2
    simp only [List.mem_map, Function.comp_apply, List.mem_range] at h1 h2
    obtain ⟨i, -, rfl⟩ := h1
    obtain ⟨j, -, h⟩ := h2
    cases h

/-- The write of a register that is written once is the one found. -/
theorem find_write_of_mem (ws : List (CsrReg × Word)) (r : CsrReg) (v : Word) (hn : (ws.map (·.1)).Nodup)
    (h : (r, v) ∈ ws) : ws.find? (·.1 = r) = some (r, v) := by
  induction ws with
  | nil => cases h
  | cons w ws ih =>
    simp only [List.map_cons, List.nodup_cons] at hn
    rcases List.mem_cons.1 h with rfl | h
    · simp
    · have : w.1 ≠ r := by intro e; exact hn.1 (e ▸ List.mem_map_of_mem (f := Prod.fst) h)
      simp [this, ih hn.2 h]

/-- What the checks of VERIFY find: a failed read before any difference (R137, R138). -/
theorem verifyChecks_result (n : Nat) (reads : List (Option Word)) (bk : Bank) (q : Posture) :
    firstFailure (verifyChecks n reads bk q) =
      if reads.any (·.isNone) = true then some .error
      else if (List.range n).all (entryMatches n (reads.map (·.getD 0)) bk) = true ∧
        postureMatches n (reads.map (·.getD 0)) q = true then none
      else some .mismatch := by
  simp only [verifyChecks]
  generalize reads.any (·.isNone) = x
  generalize (List.range n).all (entryMatches n (reads.map (·.getD 0)) bk) = y
  generalize postureMatches n (reads.map (·.getD 0)) q = z
  revert x y z
  decide

end Sys2Proof.Machine
end

