-- ==== Sys2Proof/Laws/Decoding.lean ====
section
/-! SUPPORT. What DECODE answers of an entry (42_decoder.md): when it is Ok, the bounds in each mode, and what of the bank they
depend on. -/

namespace Sys2Proof.Machine

/-- All that DECODE of an entry can answer (R117, R119, R126). -/
theorem decodeEntry_cases (p : Params) (bk : Bank) (i : Nat) :
    (p.N ≤ i ∧ decodeEntry p bk i = .error .badArg) ∨
    (i < p.N ∧ decodeEntry p bk i = .error .error ∧
      (cfgValid (bk.cfg i) = false ∨ entryBounds bk i = none ∨
        ∃ lo hi, entryBounds bk i = some (lo, hi) ∧ (2 ^ 32 ≤ lo ∨ 2 ^ 32 ≤ hi))) ∨
    (i < p.N ∧ cfgValid (bk.cfg i) = true ∧ ∃ lo hi, entryBounds bk i = some (lo, hi) ∧ lo < 2 ^ 32 ∧ hi < 2 ^ 32 ∧
      decodeEntry p bk i =
        .ok { start := BitVec.ofNat 32 lo, stop := BitVec.ofNat 32 hi, perm := permOf (bk.cfg i) }) := by
  unfold decodeEntry
  by_cases hN : p.N ≤ i
  · left; simp [hN]
  · right
    have hN' : i < p.N := by omega
    cases hv : cfgValid (bk.cfg i)
    · left; simp [hN, hN']
    · rcases hb : entryBounds bk i with _ | ⟨lo, hi⟩
      · left; simp [hN, hN']
      · by_cases h1 : lo < 2 ^ 32 ∧ hi < 2 ^ 32
        · right
          have h2 : boundFits lo = true := by simp only [boundFits, decide_eq_true_eq]; omega
          have h3 : boundFits hi = true := by simp only [boundFits, decide_eq_true_eq]; omega
          exact ⟨hN', rfl, lo, hi, rfl, h1.1, h1.2, by simp [hN, h2, h3]⟩
        · left
          have h2 : (boundFits lo && boundFits hi) = false := by
            simp only [boundFits, Bool.and_eq_false_iff, decide_eq_false_iff_not]; omega
          exact ⟨hN', by simp [hN, h2], .inr (.inr ⟨lo, hi, rfl, by omega⟩)⟩

/-- DECODE is Ok exactly on an entry in range, with a valid byte and bounds below `2^32`. -/
theorem decodeEntry_ok_iff (p : Params) (bk : Bank) (i : Nat) (d : Decoded) :
    decodeEntry p bk i = .ok d ↔
      i < p.N ∧ cfgValid (bk.cfg i) = true ∧ ∃ lo hi, entryBounds bk i = some (lo, hi) ∧ lo < 2 ^ 32 ∧ hi < 2 ^ 32 ∧
        d = { start := BitVec.ofNat 32 lo, stop := BitVec.ofNat 32 hi, perm := permOf (bk.cfg i) } := by
  rcases decodeEntry_cases p bk i with ⟨h, e⟩ | ⟨h, e, hb⟩ | ⟨h, hv, lo, hi, hb, h1, h2, e⟩ <;> rw [e]
  · constructor
    · intro h'; cases h'
    · rintro ⟨h', -⟩; omega
  · constructor
    · intro h'; cases h'
    · rintro ⟨-, hv', lo, hi, hb', h1, h2, -⟩
      rcases hb with hv | hn | ⟨lo', hi', hb, h3⟩
      · rw [hv] at hv'; cases hv'
      · rw [hn] at hb'; cases hb'
      · rw [hb] at hb'; cases hb'; omega
  · constructor
    · intro h'; cases h'; exact ⟨h, hv, lo, hi, hb, h1, h2, rfl⟩
    · rintro ⟨-, -, lo', hi', hb', -, -, rfl⟩
      rw [hb] at hb'; cases hb'; rfl

/-! ### The bounds in each mode -/

theorem entryBounds_off {bk : Bank} {i : Nat} (h : bk.mode i = .off) :
    entryBounds bk i = some (byteAddr (bk.addr i), byteAddr (bk.addr i)) := by
  simp [entryBounds, h]

theorem entryBounds_tor {bk : Bank} {i : Nat} (h : bk.mode i = .tor) :
    entryBounds bk i =
      if torChainBroken bk i = true ∨ byteAddr (bk.addr i) < byteAddr (torBase bk i) then none
      else some (byteAddr (torBase bk i), byteAddr (bk.addr i)) := by
  simp only [entryBounds, h]
  cases torChainBroken bk i <;> simp

theorem entryBounds_na4 {bk : Bank} {i : Nat} (h : bk.mode i = .na4) :
    entryBounds bk i = some (byteAddr (bk.addr i), byteAddr (bk.addr i) + 4) := by
  simp [entryBounds, h]

theorem entryBounds_napot {bk : Bank} {i k m : Nat} (h : bk.mode i = .napot) (hk : k ≤ 28)
    (ha : (bk.addr i).toNat = m * 2 ^ (k + 1) + (2 ^ k - 1)) :
    entryBounds bk i = some (m * 2 ^ (k + 3), m * 2 ^ (k + 3) + 2 ^ (k + 3)) := by
  have h28 : ¬ 28 < ctz1 (bk.addr i) := by rw [ctz1_eq (by omega) ha]; omega
  simp only [entryBounds, h, if_neg h28, napotStart_eq (by omega) ha, napotLen_eq (by omega) ha]

/-- More than 28 trailing ones denote no region (R125). -/
theorem entryBounds_napot_none {bk : Bank} {i : Nat} (h : bk.mode i = .napot)
    (ha : (bk.addr i).toNat % 2 ^ 29 = 2 ^ 29 - 1) : entryBounds bk i = none := by
  have h28 : 28 < ctz1 (bk.addr i) := le_trailingOnes 32 29 _ (by omega) ha
  simp only [entryBounds, h, if_pos h28]

/-! ### What the bounds depend on -/

theorem torChainBroken_eq_false (bk : Bank) (i : Nat) :
    torChainBroken bk i = false ↔ (0 < i → bk.mode (i - 1) = .off ∨ bk.mode (i - 1) = .tor) := by
  simp only [torChainBroken, decide_eq_false_iff_not]
  cases bk.mode (i - 1) <;> simp

/-- DECODE of an entry depends on the entry alone, and for a TOR entry on the word and the mode of the entry below. -/
theorem decodeEntry_congr {p : Params} {bk bk' : Bank} {i : Nat} (h : bk'.entry i = bk.entry i)
    (ht : bk.mode i = .tor → torBase bk' i = torBase bk i ∧ torChainBroken bk' i = torChainBroken bk i) :
    decodeEntry p bk' i = decodeEntry p bk i := by
  have hc : bk'.cfg i = bk.cfg i := congrArg Entry.cfg h
  have ha : bk'.addr i = bk.addr i := congrArg Entry.addr h
  have hm : bk'.mode i = bk.mode i := congrArg Entry.mode h
  have hb : entryBounds bk' i = entryBounds bk i := by
    simp only [entryBounds, hm, ha]
    cases hmi : bk.mode i with
    | off => rfl
    | na4 => rfl
    | napot => rfl
    | tor => simp only [(ht hmi).1, (ht hmi).2]
  simp only [decodeEntry, hc, hb]

end Sys2Proof.Machine
end

