-- ==== Sys2Proof/Laws/PerInstr.lean ====
section
/-! SUPPORT. The lemma families of LAWS.json, one lemma for each constructor of Instr. -/

/-- The word of a command has its reserved bits 0 and an OP of the table (R60, R71, R72). -/
def Sys2Proof.Laws.ReservedBitsZero.Statement (c : Sys2Proof.Instr) : Prop :=
  Sys2Proof.reservedHigh (Sys2Proof.encode c) = 0 ∧ Sys2Proof.reservedBit (Sys2Proof.encode c) = 0 ∧
  Sys2Proof.opField (Sys2Proof.encode c) < 8

namespace Sys2Proof.Laws.ReservedBitsZero

/-- Every word built from fields with an OP of the table. -/
theorem of_commandWord (b : Nat) (q : Posture) (p : Nibble) (i : Nat) (op : BitVec 4) (h : op.toNat < 8) :
    reservedHigh (commandWord b q p i op) = 0 ∧ reservedBit (commandWord b q p i op) = 0 ∧
    opField (commandWord b q p i op) < 8 :=
  ⟨reservedHigh_commandWord b q p i op, reservedBit_commandWord b q p i op,
    (opField_commandWord b q p i op).symm ▸ h⟩

theorem cfgOff (b i : Nat) (p : Nibble) : Statement (.cfgOff b i p) := of_commandWord b 0 p i 0 (Nat.le_of_ble_eq_true rfl)

theorem cfgTor (b i : Nat) (p : Nibble) : Statement (.cfgTor b i p) := of_commandWord b 0 p i 1 (Nat.le_of_ble_eq_true rfl)

theorem cfgNa4 (b i : Nat) (p : Nibble) : Statement (.cfgNa4 b i p) := of_commandWord b 0 p i 2 (Nat.le_of_ble_eq_true rfl)

theorem cfgNapot (b i : Nat) (p : Nibble) : Statement (.cfgNapot b i p) :=
  of_commandWord b 0 p i 3 (Nat.le_of_ble_eq_true rfl)

theorem decode (b i : Nat) : Statement (.decode b i) := of_commandWord b 0 0 i 4 (Nat.le_of_ble_eq_true rfl)

theorem commit (b : Nat) : Statement (.commit b) := of_commandWord b 0 0 0 5 (Nat.le_of_ble_eq_true rfl)

theorem read (b : Nat) : Statement (.read b) := of_commandWord b 0 0 0 6 (Nat.le_of_ble_eq_true rfl)

theorem verify (b : Nat) (q : Posture) : Statement (.verify b q) :=
  of_commandWord b q 0 0 7 (Nat.le_of_ble_eq_true rfl)

end Sys2Proof.Laws.ReservedBitsZero
end

