-- ==== Sys2Proof/Laws/RoundTrip.lean ====
section
/-! SUPPORT. What DECODE reads in a bank that a configure command staged (42_decoder.md R128): of the entry the command names,
and of the others. -/

namespace Sys2Proof.Machine

/-- The words of an entry, from the entry. -/
theorem Bank.of_entry {bk : Bank} {i : Nat} {c : Byte} {a : Word} (h : bk.entry i = { cfg := c, addr := a }) :
    bk.cfg i = c ∧ bk.addr i = a ∧ bk.mode i = cfgMode c := by
  simp [Bank.cfg, Bank.addr, Bank.mode, Entry.mode, h]

/-- DECODE of an entry in range with the byte of a permission that is not reserved. -/
theorem decodeEntry_of_cfgByte {p : Params} {bk : Bank} {i : Nat} {perm : Nibble} {m : Mode} {lo hi : Word}
    (hN : i < p.N) (hperm : permReserved perm = false) (hc : bk.cfg i = cfgByte perm m)
    (hb : entryBounds bk i = some (lo.toNat, hi.toNat)) :
    decodeEntry p bk i = .ok { start := lo, stop := hi, perm := perm } :=
  (decodeEntry_ok_iff ..).2 ⟨hN, by rw [hc, cfgValid_cfgByte, hperm]; rfl, lo.toNat, hi.toNat, hb, lo.isLt, hi.isLt, by
    simp [hc]⟩

theorem decodeEntry_cfgOffBank {p : Params} {bk : Bank} {i : Nat} {perm : Nibble} {s e : Word}
    (hl : i < bk.entries.length) (hf : firstFailure (cfgOffChecks p bk i perm s e) = none) :
    decodeEntry p (cfgOffBank bk i perm s) i =
      .ok { start := s &&& 0xFFFFFFFC, stop := s &&& 0xFFFFFFFC, perm := perm } := by
  have hcb := ((cfgOff_passes ..).1 hf).1
  simp only [CommonBad, not_or, Bool.not_eq_true] at hcb
  have hE : (cfgOffBank bk i perm s).entry i = { cfg := cfgByte perm .off, addr := addrWord s } := Bank.entry_setEntry_self bk i _ hl
  obtain ⟨hc, ha, hm⟩ := Bank.of_entry hE
  refine decodeEntry_of_cfgByte (by omega) hcb.2.2 hc ?_
  have hb : byteAddr (addrWord s) < 2 ^ 32 := by have := addrWord_lt s; unfold byteAddr; omega
  rw [entryBounds_off (hm.trans (cfgMode_cfgByte _ _)), ha, ← ofNat_byteAddr_addrWord, BitVec.toNat_ofNat, Nat.mod_eq_of_lt hb]

theorem decodeEntry_cfgTorBank {p : Params} {bk : Bank} {i : Nat} {perm : Nibble} {s e : Word}
    (hl : i < bk.entries.length) (hf : firstFailure (cfgTorChecks p bk i perm s e) = none) :
    decodeEntry p (cfgTorBank bk i perm s e) i = .ok { start := s, stop := e, perm := perm } := by
  obtain ⟨hcb, hal, hch, -⟩ := (cfgTor_passes ..).1 hf
  simp only [CommonBad, not_or, Bool.not_eq_true] at hcb
  rw [torMisaligned_eq_false] at hal
  rw [torChainConflict_eq_false] at hch
  have hE : (cfgTorBank bk i perm s e).entry i = { cfg := cfgByte perm .tor, addr := addrWord e } :=
    Bank.entry_setEntry_self (torBaseBank bk i s) i _ (by rw [torBaseBank_length]; exact hl)
  obtain ⟨hc, ha, hm⟩ := Bank.of_entry hE
  have hbelow : 0 < i → (cfgTorBank bk i perm s e).addr (i - 1) = addrWord s ∧
      ((cfgTorBank bk i perm s e).mode (i - 1) = .off ∨ (cfgTorBank bk i perm s e).mode (i - 1) = .tor) := fun hi => by
    have hi1 : i - 1 + 1 = i := by omega
    have he : (cfgTorBank bk i perm s e).entry (i - 1) = (torBaseBank bk i s).entry (i - 1) :=
      Bank.entry_setEntry_ne _ _ _ _ (by omega)
    rw [Bank.addr, Bank.mode, he]
    rw [show ((torBaseBank bk i s).entry (i - 1)).mode = bk.mode (i - 1) from torBaseBank_mode bk i (i - 1) s]
    rw [torBaseBank_entry]
    rcases hch.2 hi with h | ⟨h, h'⟩
    · rw [if_pos ⟨hi1, h, by omega⟩]; exact ⟨rfl, .inl h⟩
    · rw [if_neg (by rw [h]; simp)]; exact ⟨h', .inr h⟩
  have hbase : torBase (cfgTorBank bk i perm s e) i = addrWord s := by
    unfold torBase
    split
    · next h0 => rw [hch.1 h0]; rfl
    · next h0 => exact (hbelow (by omega)).1
  have hbr := (torChainBroken_eq_false (cfgTorBank bk i perm s e) i).2 fun hi => (hbelow hi).2
  refine decodeEntry_of_cfgByte (by omega) hcb.2.2 hc ?_
  rw [entryBounds_tor (hm.trans (cfgMode_cfgByte _ _)), hbr, hbase, ha,
    byteAddr_addrWord _ (mod_four_of_mod_grain hal.1), byteAddr_addrWord _ (mod_four_of_mod_grain hal.2), if_neg]
  simp only [Bool.false_eq_true, false_or]
  omega

theorem decodeEntry_cfgNa4Bank {p : Params} {bk : Bank} {i : Nat} {perm : Nibble} {s e : Word}
    (hl : i < bk.entries.length) (hf : firstFailure (cfgNa4Checks p bk i perm s e) = none) :
    decodeEntry p (cfgNa4Bank bk i perm s) i = .ok { start := s, stop := e, perm := perm } := by
  obtain ⟨hcb, -, hlen, hal, -⟩ := (cfgNa4_passes ..).1 hf
  simp only [CommonBad, not_or, Bool.not_eq_true] at hcb
  have hE : (cfgNa4Bank bk i perm s).entry i = { cfg := cfgByte perm .na4, addr := addrWord s } := Bank.entry_setEntry_self bk i _ hl
  obtain ⟨hc, ha, hm⟩ := Bank.of_entry hE
  refine decodeEntry_of_cfgByte (by omega) hcb.2.2 hc ?_
  rw [entryBounds_na4 (hm.trans (cfgMode_cfgByte _ _)), ha, byteAddr_addrWord _ hal]
  rw [regionLen] at hlen
  have he : e.toNat = s.toNat + 4 := by omega
  rw [he]

theorem decodeEntry_cfgNapotBank {p : Params} {bk : Bank} {i : Nat} {perm : Nibble} {s e : Word}
    (hl : i < bk.entries.length) (hf : firstFailure (cfgNapotChecks p bk i perm s e) = none) :
    decodeEntry p (cfgNapotBank bk i perm s e) i = .ok { start := s, stop := e, perm := perm } := by
  obtain ⟨hcb, ⟨n, h3, hn, hal, -⟩, -⟩ := (cfgNapot_passes ..).1 hf
  simp only [CommonBad, not_or, Bool.not_eq_true] at hcb
  have hE : (cfgNapotBank bk i perm s e).entry i = { cfg := cfgByte perm .napot, addr := napotWord s e } := Bank.entry_setEntry_self bk i _ hl
  obtain ⟨hc, ha, hm⟩ := Bank.of_entry hE
  obtain ⟨k, rfl⟩ : ∃ k, n = k + 3 := ⟨n - 3, by omega⟩
  have hr : e.toNat = s.toNat + 2 ^ (k + 3) := by omega
  have hsh := napotWord_shape hr hal
  rw [← ha] at hsh
  refine decodeEntry_of_cfgByte (by omega) hcb.2.2 hc ?_
  have hd : s.toNat / 2 ^ (k + 3) * 2 ^ (k + 3) = s.toNat := Nat.div_mul_cancel (Nat.dvd_of_mod_eq_zero hal)
  have hb := entryBounds_napot (hm.trans (cfgMode_cfgByte _ _)) (pow_lt_of_region hr) hsh
  rw [hd, ← hr] at hb
  exact hb

/-- What DECODE reads in an entry the command does not name stays, but for the base it writes into an OFF entry below
(R94, R106, R128). -/
theorem decodeEntry_confBank_ne {c : Instr} {p : Params} {bk : Bank} {s e : Word} {j : Nat} (hc : c.isConfigure = true)
    (hf : firstFailure (confChecks c p bk s e) = none) (hj : c.entry? ≠ some j) (hjn : j < p.N)
    (hx : ∀ b perm, c = .cfgTor b (j + 1) perm → bk.mode j ≠ .off)
    (hbr : bk.mode j = .tor → torChainBroken bk j = false) :
    decodeEntry p (confBank c bk s e) j = decodeEntry p bk j := by
  obtain ⟨i, hi⟩ : ∃ i, c.entry? = some i := by cases c <;> simp_all [Instr.isConfigure, Instr.entry?]
  have haddr : (confBank c bk s e).addr j = bk.addr j := by
    rcases confBank_addr_ne c bk s e j hj with h | ⟨⟨b, perm, h1⟩, h2, -⟩
    · exact h
    · exact absurd h2 (hx b perm h1)
  refine decodeEntry_congr ?_ fun hm => ?_
  · show Entry.mk _ _ = Entry.mk _ _
    exact congrArg₂ Entry.mk (confBank_cfg_ne _ _ _ _ _ hj) haddr
  by_cases h0 : j = 0
  · subst h0; simp [torBase, torChainBroken]
  have hbelow : (confBank c bk s e).addr (j - 1) = bk.addr (j - 1) ∧
      ((confBank c bk s e).mode (j - 1) = .off ∨ (confBank c bk s e).mode (j - 1) = .tor) := by
    by_cases hi1 : i = j - 1
    · have hjj : i + 1 = j := by omega
      rw [← hi1]
      by_cases hl : i < bk.entries.length
      · exact confBank_base_of_tor_above hc hi hl hf (by omega) (by rw [hjj]; exact hm)
      · rw [Bank.addr, Bank.addr, Bank.mode, Bank.entry_of_length_le _ _ (by rw [confBank_length]; omega),
          Bank.entry_of_length_le _ _ (by omega)]
        exact ⟨rfl, .inl (by decide)⟩
    · have hne : c.entry? ≠ some (j - 1) := by rw [hi]; simpa using hi1
      refine ⟨?_, ?_⟩
      · rcases confBank_addr_ne c bk s e (j - 1) hne with h | ⟨⟨b, perm, rfl⟩, -, -⟩
        · exact h
        · have : j - 1 + 1 = j := by omega
          rw [this] at hj
          simp [Instr.entry?] at hj
      · rw [confBank_mode_ne _ _ _ _ _ hne]
        exact (torChainBroken_eq_false _ _).1 (hbr hm) (by omega)
  refine ⟨by simp only [torBase, if_neg h0]; exact hbelow.1, ?_⟩
  rw [hbr hm, torChainBroken_eq_false]
  exact fun _ => hbelow.2

/-- A TOR entry that DECODE accepts stands above an OFF or TOR entry (R123). -/
theorem torChainBroken_of_decodeEntry {p : Params} {bk : Bank} {i : Nat} {d : Decoded}
    (hd : decodeEntry p bk i = .ok d) (hm : bk.mode i = .tor) : torChainBroken bk i = false := by
  obtain ⟨-, -, lo, hi, hb, -⟩ := (decodeEntry_ok_iff ..).1 hd
  rw [entryBounds_tor hm] at hb
  cases h : torChainBroken bk i
  · rfl
  · rw [if_pos (.inl h)] at hb; cases hb

end Sys2Proof.Machine
end

