-- ==== Sys2Proof/Tests/Slice0.lean ====
section
/-! SUPPORT. Tests. Expected values are those of 95_test_vectors.md (the vector's name stands in the test's comment) or words
written out from 30_encoding.md. -/

namespace Sys2Proof.Tests

open Sys2Proof.Machine

/-! ### Well-formedness -/

theorem test_wf_smoke :
    Instr.wellFormed (.cfgOff 16 0 0) = false ∧ Instr.wellFormed (.cfgOff 0 256 0) = false ∧
    Instr.wellFormed (.cfgTor 16 0 0) = false ∧ Instr.wellFormed (.cfgTor 0 256 0) = false ∧
    Instr.wellFormed (.cfgNa4 16 0 0) = false ∧ Instr.wellFormed (.cfgNa4 0 256 0) = false ∧
    Instr.wellFormed (.cfgNapot 16 0 0) = false ∧ Instr.wellFormed (.cfgNapot 0 256 0) = false ∧
    Instr.wellFormed (.decode 16 0) = false ∧ Instr.wellFormed (.decode 0 256) = false ∧
    Instr.wellFormed (.commit 16) = false ∧ Instr.wellFormed (.read 16) = false ∧
    Instr.wellFormed (.verify 16 0) = false ∧ Instr.wellFormed (.cfgOff 15 255 0xF) = true :=
  ⟨rfl, rfl, rfl, rfl, rfl, rfl, rfl, rfl, rfl, rfl, rfl, rfl, rfl, rfl⟩

/-! ### Words, field by field: reserved 31:24, BANK 23:20, reserved 19, POSTURE 18:16, PERM 15:12, ENTRY 11:4, OP 3:0 -/

theorem test_decode_cfgOff : decode 0b00000000_1001_0_000_1101_10000001_0000 = .ok (.cfgOff 9 129 0xD) := rfl

theorem test_decode_cfgTor : decode 0b00000000_0001_0_000_0011_00000010_0001 = .ok (.cfgTor 1 2 0x3) := rfl

theorem test_decode_cfgNa4 : decode 0b00000000_1000_0_000_0001_01000000_0010 = .ok (.cfgNa4 8 64 0x1) := rfl

theorem test_decode_cfgNapot : decode 0b00000000_0010_0_000_1111_00000001_0011 = .ok (.cfgNapot 2 1 0xF) := rfl

theorem test_decode_decode : decode 0b00000000_0100_0_111_1111_11111111_0100 = .ok (.decode 4 255) := rfl

theorem test_decode_commit : decode 0b00000000_0011_0_000_0000_00000000_0101 = .ok (.commit 3) := rfl

theorem test_decode_read : decode 0b00000000_0001_0_000_0000_00000000_0110 = .ok (.read 1) := rfl

theorem test_decode_verify : decode 0b00000000_1100_0_100_0000_00000000_0111 = .ok (.verify 12 0b100) := rfl

/-- V-W1 to V-W5: the reserved words. -/
theorem test_decode_reserved :
    decode 0x00000008 = .error .reservedOp ∧ decode 0x0000000F = .error .reservedOp ∧
    decode 0x00080004 = .error .reservedBit19 ∧ decode 0x01000004 = .error .reservedHighBits ∧
    decode 0x00F00008 = .error .reservedOp := ⟨rfl, rfl, rfl, rfl, rfl⟩

theorem test_encode :
    encode (.cfgTor 0 1 0x3) = 0x00003011 ∧ encode (.verify 0 0x6) = 0x00060007 ∧ encode (.decode 1 1) = 0x00100014 :=
  ⟨rfl, rfl, rfl⟩

theorem test_decodeTableWord :
    decodeTableWord 32 0x5 = some (.commit 0) ∧ decodeTableWord 96 0x100000001000003011 = some (.cfgTor 0 1 3) ∧
    decodeTableWord 32 0x8 = none := ⟨rfl, rfl, rfl⟩

/-! ### One step -/

/-- N = 16, two banks of which bank 0 begins with these entries, the reference CSR file (the conventions of the vectors). -/
def bench (G : Nat) (es : List Entry) (c : CsrFile) (ds : List Bool) : State :=
  { State.launch { Params.standard with G := G, backend := .reference } c 0 ⟨0, 0, 0⟩ [] ds with
    banks := [⟨es ++ List.replicate (16 - es.length) Entry.empty⟩, Bank.empty 16] }

/-- A CSR file that holds only mseccfg and the first words of the two families. -/
def file (cfg addr : List Word) (mseccfg : Word) : CsrFile where
  pmpcfg := cfg ++ List.replicate (4 - cfg.length) 0
  pmpaddr := addr ++ List.replicate (16 - addr.length) 0
  mseccfg := mseccfg

/-- One command from outside, to its next state. -/
def issue (s : State) (cmd st en : Word) : Option State :=
  match step { s with inputs := [.command cmd st en] } with
  | .next t => some t
  | .fault _ => none
  | .refused _ => none

/-- RESULT, and entry `i` of bank 0, after one command. -/
def shows (s : State) (cmd st en : Word) (i : Nat) : Option (BitVec 3 × Byte × Word) :=
  (issue s cmd st en).map fun t => (t.result, (t.bank 0).cfg i, (t.bank 0).addr i)

/-- RESULT and the output ports after DECODE. -/
def decodes (es : List Entry) (cmd : Word) : Option (BitVec 3 × Decoded) :=
  (issue (bench 0 es (file [] [] 0) []) cmd 0 0).map fun t =>
    (t.result, ⟨t.outStart, t.outEnd, t.outPerm⟩)

/-- RESULT alone. -/
def resultOf (s : State) (cmd st en : Word) : Option (BitVec 3) := (issue s cmd st en).map (·.result)

def empty (G : Nat) : State := bench G [] (file [] [] 0) []

/-- After `cfg.tor 0, 1, [0x10, 0x20), UNLOCKED_RW`. -/
def torAtOne : State := bench 0 [⟨0x00, 0x04⟩, ⟨0x0B, 0x08⟩] (file [] [] 0) []

/-- The chain of E5. -/
def chain : State := bench 0 [⟨0x0D, 0x04⟩, ⟨0x0B, 0x08⟩] (file [] [] 6) []

/-- The end state of program P1, before its COMMIT. -/
def built (c : CsrFile) (ds : List Bool) : State :=
  bench 0 [⟨0x0D, 0x04⟩, ⟨0x0B, 0x08⟩, ⟨0x00, 0x0C⟩, ⟨0x09, 0x10⟩] c ds

/-- The CSR file of V-S1. -/
def committedFile : CsrFile := file [0x09000B0D] [0x04, 0x08, 0x0C, 0x10] 6

/-- V-O2, V-O6, V-O8. -/
theorem test_cfgOff_ok :
    shows (empty 0) 0x00007000 0x103 0x103 0 = some (0, 0x07, 0x40) ∧
    shows (empty 0) 0x0000D000 0x100 0x100 0 = some (0, 0x85, 0x40) ∧
    shows (empty 0) 0x00000000 0xFFFFFFFF 0xFFFFFFFF 0 = some (0, 0x00, 0x3FFFFFFF) := by decide

/-- V-O3, V-O4, V-O5, V-O7, V-O10. -/
theorem test_cfgOff_fails :
    resultOf (empty 0) 0x00007000 0x100 0x104 = some 2 ∧ resultOf (empty 0) 0x00007000 0x104 0x100 = some 1 ∧
    resultOf (empty 0) 0x00007100 0 0 = some 1 ∧ resultOf (empty 0) 0x00002000 0x100 0x100 = some 1 ∧
    resultOf torAtOne 0x00005000 0x14 0x14 = some 3 := by decide

/-- V-T4, V-T9, V-T11. -/
theorem test_cfgTor_ok :
    shows (empty 0) 0x00003011 0x10 0x20 0 = some (0, 0x00, 0x04) ∧
    shows (empty 0) 0x00003011 0x10 0x20 1 = some (0, 0x0B, 0x08) ∧
    shows (empty 0) 0x000030F1 0x1000 0xFFFFFFFC 15 = some (0, 0x0B, 0x3FFFFFFF) ∧
    shows (empty 2) 0x00003001 0 0x10 0 = some (0, 0x0B, 0x04) := by decide

/-- V-T2, V-T3, V-T5, V-T6, V-T7, V-T10, V-T12, E5. -/
theorem test_cfgTor_fails :
    resultOf (empty 0) 0x00003001 0x10 0x20 = some 3 ∧ resultOf (empty 0) 0x00003001 0 0x12 = some 2 ∧
    resultOf (bench 0 [⟨0x1F, 0x05⟩] (file [] [] 0) []) 0x00003011 0x20 0x30 = some 3 ∧
    resultOf (bench 0 [⟨0x17, 0x08⟩] (file [] [] 0) []) 0x00003011 0x24 0x30 = some 3 ∧
    resultOf (bench 0 [⟨0x1F, 0x05⟩] (file [] [] 0) []) 0x00003011 0x21 0x30 = some 2 ∧
    resultOf (empty 2) 0x00003001 0 0x08 = some 2 ∧ resultOf chain 0x00003011 0x14 0x20 = some 3 ∧
    resultOf chain 0x00005001 0 0x18 = some 3 := by decide

/-- V-N1, V-N6. -/
theorem test_cfgNa4_ok :
    shows (empty 0) 0x00001002 0x20 0x24 0 = some (0, 0x11, 0x08) ∧
    shows (empty 0) 0x00001002 0xFFFFFFF8 0xFFFFFFFC 0 = some (0, 0x11, 0x3FFFFFFE) := by decide

/-- V-N2 to V-N5, E6. -/
theorem test_cfgNa4_fails :
    resultOf (empty 0) 0x00001002 0x22 0x26 = some 2 ∧ resultOf (empty 0) 0x00001002 0x20 0x28 = some 2 ∧
    resultOf (empty 1) 0x00001002 0x20 0x24 = some 2 ∧ resultOf torAtOne 0x00001002 0x10 0x14 = some 3 ∧
    resultOf (empty 1) 0x00001102 0x20 0x24 = some 1 := by decide

/-- V-P2, V-P4, V-P5, V-P6, V-P12. -/
theorem test_cfgNapot_ok :
    shows (empty 0) 0x00000013 0x50 0x58 1 = some (0, 0x18, 0x14) ∧
    shows (empty 0) 0x00007003 0 0x80000000 0 = some (0, 0x1F, 0x0FFFFFFF) ∧
    shows (empty 0) 0x00007003 0x2000 0x3000 0 = some (0, 0x1F, 0x9FF) ∧
    shows (empty 0) 0x0000F003 0x40 0x80 0 = some (0, 0x9F, 0x17) ∧
    shows (empty 2) 0x00007003 0x10 0x20 0 = some (0, 0x1F, 0x05) := by decide

/-- V-P7 to V-P11, V-P13. -/
theorem test_cfgNapot_fails :
    resultOf (empty 0) 0x00007003 0x08 0x18 = some 2 ∧ resultOf (empty 0) 0x00007003 0x10 0x14 = some 2 ∧
    resultOf (empty 0) 0x00007003 0x10 0x1C = some 2 ∧ resultOf (empty 0) 0x00007003 0x10 0x10 = some 2 ∧
    resultOf (empty 2) 0x00007003 0x10 0x18 = some 2 ∧ resultOf torAtOne 0x00007003 0 0x10 = some 3 := by decide

/-- V-D1, V-D4, V-D6, V-D8, V-D9, V-D16. -/
theorem test_decode_ok :
    decodes [⟨0x1F, 0x9FF⟩] 0x00000004 = some (0, ⟨0x2000, 0x3000, 0x7⟩) ∧
    decodes [⟨0x1F, 0x0FFFFFFF⟩] 0x00000004 = some (0, ⟨0, 0x80000000, 0x7⟩) ∧
    decodes [⟨0x85, 0x40⟩] 0x00000004 = some (0, ⟨0x100, 0x100, 0xD⟩) ∧
    decodes [⟨0x0B, 0x04⟩] 0x00000004 = some (0, ⟨0, 0x10, 0x3⟩) ∧
    decodes [⟨0x0D, 0x04⟩, ⟨0x0B, 0x08⟩] 0x00000014 = some (0, ⟨0x10, 0x20, 0x3⟩) ∧
    decodes [⟨0x11, 0x3FFFFFFE⟩] 0x00000004 = some (0, ⟨0xFFFFFFF8, 0xFFFFFFFC, 0x1⟩) := by decide

/-- RESULT of DECODE. -/
def decodeResult (es : List Entry) (cmd : Word) : Option (BitVec 3) :=
  resultOf (bench 0 es (file [] [] 0) []) cmd 0 0

/-- V-D11 to V-D15, V-D17 to V-D26. -/
theorem test_decode_fails :
    decodeResult [⟨0x1F, 0x1FFFFFFF⟩] 4 = some 5 ∧ decodeResult [⟨0x1F, 0xFFFFFFFF⟩] 4 = some 5 ∧
    decodeResult [⟨0x1F, 0x2FFFFFFF⟩] 4 = some 5 ∧ decodeResult [⟨0x1F, 0x3FFFFFFE⟩] 4 = some 5 ∧
    decodeResult [⟨0x11, 0x3FFFFFFF⟩] 4 = some 5 ∧ decodeResult [⟨0x00, 0x40000000⟩] 4 = some 5 ∧
    decodeResult [⟨0x0B, 0x40000000⟩] 4 = some 5 ∧ decodeResult [⟨0x02, 0⟩] 4 = some 5 ∧
    decodeResult [⟨0x20, 0⟩] 4 = some 5 ∧ decodeResult [⟨0x0A, 0⟩] 4 = some 5 ∧
    decodeResult [⟨0x1F, 0x05⟩, ⟨0x0B, 0x10⟩] 0x14 = some 5 ∧ decodeResult [⟨0x17, 0x08⟩, ⟨0x0B, 0x10⟩] 0x14 = some 5 ∧
    decodeResult [⟨0x00, 0x08⟩, ⟨0x0B, 0x04⟩] 0x14 = some 5 ∧ decodeResult [] 0x104 = some 1 ∧
    decodeResult [] 0xFF4 = some 1 := by decide

/-- V-S1: COMMIT. -/
theorem test_commit_ok :
    (issue (built (file [] [] 6) []) 0x00000005 0 0).map (fun t => (t.result, t.csr)) = some (0, committedFile) := by decide

/-- V-S9: COMMIT with the write of pmpcfg[0], its 17th access, failing. -/
theorem test_commit_fails :
    (issue (built (file [] [] 6) (List.replicate 16 false ++ [true])) 0x00000005 0 0).map (fun t => (t.result, t.csr)) =
      some (5, file [] [0x04, 0x08, 0x0C, 0x10] 6) := by decide

/-- V-S13: READ into bank 1. -/
theorem test_read_ok :
    (issue (built committedFile []) 0x00100006 0 0).map (fun t => (t.result, t.bank 1)) =
      some (0, (built committedFile []).bank 0) := by decide

/-- V-S14: READ with the read of pmpcfg[2], its 19th access, failing. -/
theorem test_read_fails :
    (issue (built committedFile (List.replicate 18 false ++ [true])) 0x00100006 0 0).map (fun t => (t.result, t.bank 1)) =
      some (5, Bank.empty 16) := by decide

/-- V-S2, V-S5, and V-S6, V-S3, V-S4, V-S7, V-S8. -/
theorem test_verify :
    resultOf (built committedFile []) 0x00060007 0 0 = some 0 ∧
    resultOf (built (csrSet committedFile .mseccfg 0xFFFFFFFE) []) 0x00060007 0 0 = some 0 ∧
    resultOf (built committedFile []) 0x00070007 0 0 = some 4 ∧
    resultOf (built (csrSet committedFile .mseccfg 7) []) 0x00060007 0 0 = some 4 ∧
    resultOf (built (csrSet committedFile .mseccfg 2) []) 0x00060007 0 0 = some 4 ∧
    resultOf (built (csrSet committedFile (.pmpcfg 0) 0x09000B2D) []) 0x00060007 0 0 = some 4 ∧
    resultOf (built (csrSet committedFile (.pmpcfg 3) 0x01000000) []) 0x00060007 0 0 = some 4 := by decide

/-- V-S12: VERIFY with the read of mseccfg, its 21st access, failing and pmpaddr[1] altered. -/
theorem test_verify_error_first :
    resultOf (built (csrSet committedFile (.pmpaddr 1) 0x09) (List.replicate 20 false ++ [true])) 0x00060007 0 0 =
      some 5 := by decide

/-- V-W1 to V-W7, V-S16. -/
theorem test_words :
    resultOf (empty 0) 0x00000008 0 0 = some 5 ∧ resultOf (empty 0) 0x00080004 0 0 = some 5 ∧
    resultOf (empty 0) 0x01000004 0 0 = some 5 ∧ resultOf (empty 0) 0x00F00008 0 0 = some 5 ∧
    resultOf (empty 0) 0x00200004 0 0 = some 1 ∧ resultOf (empty 0) 0x00200005 0 0 = some 1 ∧
    resultOf (empty 0) 0x0007F004 0x123 0x456 = some 0 := by decide

/-- A word placed on the reset state is the next command. -/
theorem test_withFetchWord :
    (match step (State.reset.withFetchWord 96 0x200000001000003011) with
      | .next t => some (t.result, (t.bank 0).cfg 1, (t.bank 0).addr 1, t.portEnd)
      | .fault _ => none
      | .refused _ => none) = some (0, 0x0B, 0x08, 0x20) := by decide

/-! ### Witnesses: for each statement with hypotheses, states and operands that meet them together -/

/-- The state in which a command of the region `[st, en)` runs. -/
def withRegion (s : State) (st en : Word) : State := s.samplePorts 0 st en

theorem wf_standard : Params.standard.Wf := by decide

theorem shape_bench (G : Nat) (es : List Entry) (c a : List Word) (q : Word) (ds : List Bool) (hG : G ≤ 29)
    (he : es.length ≤ 16) (hc : c.length ≤ 4) (ha : a.length ≤ 16) (st en : Word) :
    (withRegion (bench G es (file c a q) ds) st en).ShapeOk := by
  have h := wf_standard
  refine ⟨⟨h.1, h.2.1, h.2.2.1, hG, h.2.2.2.2⟩, rfl, ?_, ?_, ?_⟩
  · intro bk hbk
    rcases List.mem_cons.1 hbk with rfl | hbk
    · show (es ++ List.replicate (16 - es.length) Entry.empty).length = 16
      simp; omega
    · rw [List.mem_singleton.1 hbk]; rfl
  · show (c ++ List.replicate (4 - c.length) 0).length = 16 / 4
    simp; omega
  · show (a ++ List.replicate (16 - a.length) 0).length = 16
    simp; omega

theorem shape_empty (G : Nat) (hG : G ≤ 29) (st en : Word) : (withRegion (empty G) st en).ShapeOk :=
  shape_bench G [] [] [] 0 [] hG (by decide) (by decide) (by decide) st en

theorem shape_chain (st en : Word) : (withRegion chain st en).ShapeOk :=
  shape_bench 0 _ [] [] 6 [] (by decide) (by decide) (by decide) (by decide) st en

theorem shape_torAtOne (st en : Word) : (withRegion torAtOne st en).ShapeOk :=
  shape_bench 0 _ [] [] 0 [] (by decide) (by decide) (by decide) (by decide) st en

theorem shape_built (ds : List Bool) (st en : Word) : (withRegion (built committedFile ds) st en).ShapeOk :=
  shape_bench 0 _ _ _ 6 ds (by decide) (by decide) (by decide) (by decide) st en

theorem no_draw_fails (s : State) (n : Nat) (h : s.draws = []) : ¬ SomeAccessFails s n := by
  rintro ⟨k, -, hk⟩
  rw [h] at hk
  cases hk

theorem witness_DecodeOfEncode :
    Instr.wellFormed (.cfgTor 15 255 0xE) = true ∧ Instr.wellFormed (.verify 15 7) = true := ⟨rfl, rfl⟩

theorem witness_DecodedWordIsEncodingUpToIgnoredBits : decode 0x00F7FFF4 = .ok (.decode 15 255) := rfl

theorem witness_IgnoredFieldsDoNotMatter :
    (decode 0x00000004 = .ok (.decode 0 0) ∧
      0x0007F004 &&& usedMask (.decode 0 0) = 0x00000004 &&& usedMask (.decode 0 0)) ∧
    (Instr.isConfigure (.verify 0 6) = false ∧ ∃ t, exec (.verify 0 6) chain = .next t) :=
  ⟨⟨rfl, rfl⟩, rfl, _, rfl⟩

theorem witness_StepRunsDecodedCommand :
    (State.reset.withFetchWord 32 0x00000004).inputs = [.command 0x00000004 0 0] ∧
    decode 0x00000004 = .ok (.decode 0 0) := ⟨rfl, rfl⟩

theorem witness_ReservedWordEndsInError :
    (State.reset.withFetchWord 32 0x00000008).inputs = [.command 0x00000008 0 0] ∧
    8 ≤ (0x00000008 : Word).toNat % 16 ∧ (0x00080004 : Word).getLsbD 19 = true ∧
    (0x01000004 : Word).extractLsb' 24 8 ≠ 0 := by decide

theorem witness_StepBetweenCommands :
    State.reset.inputs = [] ∧
    (State.reset.setInputs [.envWrite (.pmpaddr 1) 0x09]).inputs = .envWrite (.pmpaddr 1) 0x09 :: [] ∧
    (State.reset.setInputs [.reset]).inputs = .reset :: [] := ⟨rfl, rfl, rfl⟩

theorem witness_StepKeepsShape :
    State.ShapeOk (withRegion (empty 29) 0 0) ∧ ∃ t, step (State.withFetchWord (empty 29) 32 0x00000005) = .next t :=
  ⟨shape_empty 29 (by decide) 0 0, _, rfl⟩

theorem witness_LaunchBanksAreEmpty : 1 < Params.standard.numBanks ∧ 15 < Params.standard.N := by decide

/-- Each code that a clause of the statement names. -/
theorem witness_WhichCommandRaisesWhichCode :
    (∃ t, exec (.cfgOff 0 0 7) (withRegion (empty 0) 0x100 0x104) = .next t ∧ t.result = 2) ∧
    (∃ t, exec (.cfgTor 0 0 3) (withRegion (empty 0) 0x10 0x20) = .next t ∧ t.result = 3) ∧
    (∃ t, exec (.verify 0 7) chain = .next t ∧ t.result = 4) ∧
    (∃ t, exec (.decode 0 0) (bench 0 [⟨0x20, 0⟩] (file [] [] 0) []) = .next t ∧ t.result = 5) :=
  ⟨⟨_, rfl, by decide⟩, ⟨_, rfl, by decide⟩, ⟨_, rfl, by decide⟩, ⟨_, rfl, by decide⟩⟩

theorem witness_FailureChangesNoBank :
    ∃ t, exec (.cfgOff 0 0 7) (withRegion (empty 0) 0x100 0x104) = .next t ∧ t.result ≠ 0 ∧
      Instr.isCommit (.cfgOff 0 0 7) = false := ⟨_, rfl, by decide, rfl⟩

theorem witness_BankOutOfRangeIsBadArg :
    decode 0x00200005 = .ok (.commit 2) ∧ (empty 0).params.numBanks ≤ Instr.bank (.commit 2) := ⟨rfl, by decide⟩

theorem witness_EntryOutOfRangeIsBadArg :
    decode 0x00000104 = .ok (.decode 0 16) ∧ Instr.entry? (.decode 0 16) = some 16 ∧ (empty 0).params.N ≤ 16 :=
  ⟨rfl, rfl, by decide⟩

/-- The causes at their boundaries, and the last operands without one. -/
theorem witness_ConfigureBadArgExactly :
    (∃ t, exec (.cfgNa4 0 16 1) (withRegion (empty 0) 0x20 0x24) = .next t) ∧
    BadArgCause (withRegion (empty 0) 0x20 0x24) 0 16 1 ∧ BadArgCause (withRegion (empty 0) 0x20 0x24) 2 0 1 ∧
    BadArgCause (withRegion (empty 0) 0x20 0x1F) 0 0 1 ∧ BadArgCause (withRegion (empty 0) 0x20 0x24) 0 0 0xE ∧
    ¬ BadArgCause (withRegion (empty 0) 0x20 0x20) 1 15 0xF := by
  refine ⟨⟨_, rfl⟩, ?_, ?_, ?_, ?_, ?_⟩ <;> unfold BadArgCause <;> decide

theorem witness_ConfigureBadRegionExactly :
    ¬ BadArgCause (withRegion (empty 0) 0x20 0x20) 1 15 0xF ∧
    (∃ t, exec (.cfgOff 1 15 0xF) (withRegion (empty 0) 0x20 0x20) = .next t) ∧
    (∃ t, exec (.cfgTor 1 15 0xF) (withRegion (empty 0) 0x20 0x20) = .next t) ∧
    (∃ t, exec (.cfgNa4 1 15 0xF) (withRegion (empty 0) 0x20 0x20) = .next t) ∧
    (∃ t, exec (.cfgNapot 1 15 0xF) (withRegion (empty 0) 0x20 0x20) = .next t) :=
  ⟨witness_ConfigureBadArgExactly.2.2.2.2.2, ⟨_, rfl⟩, ⟨_, rfl⟩, ⟨_, rfl⟩, ⟨_, rfl⟩⟩

/-- Each command with Conflict, and with Ok. -/
theorem witness_ConfigureConflictExactly :
    (∃ t, exec (.cfgOff 0 0 5) (withRegion torAtOne 0x14 0x14) = .next t ∧ t.result = 3) ∧
    (∃ t, exec (.cfgOff 0 0 5) (withRegion torAtOne 0x10 0x10) = .next t ∧ t.result = 0) ∧
    (∃ t, exec (.cfgTor 0 1 3) (withRegion chain 0x14 0x20) = .next t ∧ t.result = 3) ∧
    (∃ t, exec (.cfgTor 0 1 3) (withRegion chain 0x10 0x20) = .next t ∧ t.result = 0) ∧
    (∃ t, exec (.cfgNa4 0 0 1) (withRegion torAtOne 0x10 0x14) = .next t ∧ t.result = 3) ∧
    (∃ t, exec (.cfgNa4 0 1 1) (withRegion torAtOne 0x10 0x14) = .next t ∧ t.result = 0) ∧
    (∃ t, exec (.cfgNapot 0 0 7) (withRegion torAtOne 0 0x10) = .next t ∧ t.result = 3) ∧
    (∃ t, exec (.cfgNapot 0 15 7) (withRegion torAtOne 0 0x10) = .next t ∧ t.result = 0) :=
  ⟨⟨_, rfl, by decide⟩, ⟨_, rfl, by decide⟩, ⟨_, rfl, by decide⟩, ⟨_, rfl, by decide⟩,
    ⟨_, rfl, by decide⟩, ⟨_, rfl, by decide⟩, ⟨_, rfl, by decide⟩, ⟨_, rfl, by decide⟩⟩

/-- Entry 0 holds the base of entry 1, and CFG_OFF keeps the word. -/
theorem witness_CfgOffWritesItsEntry :
    (withRegion torAtOne 0x10 0x10).ShapeOk ∧ ¬ BadArgCause (withRegion torAtOne 0x10 0x10) 0 0 5 ∧
    (withRegion torAtOne 0x10 0x10).portStart = (withRegion torAtOne 0x10 0x10).portEnd ∧
    ¬ ChangesTorBase (withRegion torAtOne 0x10 0x10) 0 0 ((withRegion torAtOne 0x10 0x10).portStart >>> 2) := by
  refine ⟨shape_torAtOne _ _, ?_, rfl, ?_⟩
  · unfold BadArgCause; decide
  · unfold ChangesTorBase; decide

/-- The hypotheses of `CfgTorWritesTopAndBase` on entry `i` of bank 0. -/
def TorRuns (s : State) (i : Nat) (perm : Nibble) : Prop :=
  ¬ BadArgCause s 0 i perm ∧ s.portStart.toNat % 2 ^ (2 + s.params.G) = 0 ∧ s.portEnd.toNat % 2 ^ (2 + s.params.G) = 0 ∧
  ¬ BaseRefused s 0 i s.portStart ∧ ¬ ChangesTorBase s 0 i (s.portEnd >>> 2)

/-- Above a TOR entry, above an OFF entry, and on entry 0 with the largest grain. -/
theorem witness_CfgTorWritesTopAndBase :
    ((withRegion chain 0x10 0x20).ShapeOk ∧ TorRuns (withRegion chain 0x10 0x20) 1 3 ∧ (chain.bank 0).mode 0 ≠ .off) ∧
    ((withRegion torAtOne 0x18 0x20).ShapeOk ∧ TorRuns (withRegion torAtOne 0x18 0x20) 1 3 ∧
      (torAtOne.bank 0).mode 0 = .off) ∧
    ((withRegion (empty 29) 0 0x80000000).ShapeOk ∧ TorRuns (withRegion (empty 29) 0 0x80000000) 0 3) := by
  refine ⟨⟨shape_chain _ _, ?_, by decide⟩, ⟨shape_torAtOne _ _, ?_, by decide⟩, shape_empty 29 (by decide) _ _, ?_⟩
  all_goals unfold TorRuns BadArgCause BaseRefused ChangesTorBase; decide

theorem witness_CfgNa4WritesItsEntry :
    (withRegion (empty 0) 0xFFFFFFF8 0xFFFFFFFC).ShapeOk ∧
    ¬ BadArgCause (withRegion (empty 0) 0xFFFFFFF8 0xFFFFFFFC) 1 15 0xF ∧ (empty 0).params.G = 0 ∧
    (0xFFFFFFFC : Word).toNat = (0xFFFFFFF8 : Word).toNat + 4 ∧ (0xFFFFFFF8 : Word).toNat % 4 = 0 ∧
    ¬ BelowTor (withRegion (empty 0) 0xFFFFFFF8 0xFFFFFFFC) 1 15 := by
  refine ⟨shape_empty 0 (by decide) _ _, ?_, rfl, by decide, by decide, ?_⟩
  · unfold BadArgCause; decide
  · unfold BelowTor; decide

/-- The largest length, and the smallest under G = 2. -/
theorem witness_CfgNapotWritesItsEntry :
    (withRegion (empty 2) 0 0x80000000).ShapeOk ∧ ¬ BadArgCause (withRegion (empty 2) 0 0x80000000) 0 0 7 ∧
    (0x80000000 : Word).toNat = (0 : Word).toNat + 2 ^ (28 + 3) ∧ (0 : Word).toNat % 2 ^ (28 + 3) = 0 ∧
    (0x20 : Word).toNat = (0x10 : Word).toNat + 2 ^ (1 + 3) ∧ (0x10 : Word).toNat % 2 ^ (1 + 3) = 0 ∧
    (0 < (empty 2).params.G → 2 + (empty 2).params.G ≤ 1 + 3) ∧ ¬ BelowTor (empty 2) 0 0 := by
  refine ⟨shape_empty 2 (by decide) _ _, ?_, by decide, by decide, by decide, by decide, by decide, ?_⟩
  · unfold BadArgCause; decide
  · unfold BelowTor; decide

/-- Each command, and for CFG_TOR a word of the entry below that changes. -/
theorem witness_ConfigureFrame :
    (∃ t, exec (.cfgOff 0 0 7) (withRegion (empty 0) 0 0) = .next t) ∧
    (∃ t, exec (.cfgTor 0 1 3) (withRegion (empty 0) 0x10 0x20) = .next t ∧
      (t.bank 0).addr 0 ≠ ((withRegion (empty 0) 0x10 0x20).bank 0).addr 0) ∧
    (∃ t, exec (.cfgNa4 0 0 7) (withRegion (empty 0) 0 4) = .next t) ∧
    (∃ t, exec (.cfgNapot 0 0 7) (withRegion (empty 0) 0 8) = .next t) :=
  ⟨⟨_, rfl⟩, ⟨_, rfl, by decide⟩, ⟨_, rfl⟩, ⟨_, rfl⟩⟩

/-- Two states with one bank 0 and different CSR files. -/
theorem witness_ConfigureSeesOnlyItsBank :
    (withRegion (built committedFile []) 0 0).ShapeOk ∧ (withRegion (built (file [] [] 6) []) 0 0).ShapeOk ∧
    committedFile ≠ file [] [] 6 ∧
    (withRegion (built committedFile []) 0 0).bank 0 = (withRegion (built (file [] [] 6) []) 0 0).bank 0 ∧
    (∃ t, exec (.cfgTor 0 0 5) (withRegion (built committedFile []) 0 0) = .next t) :=
  ⟨shape_built _ _ _, shape_bench 0 _ [] [] 6 [] (by decide) (by decide) (by decide) (by decide) _ _, by decide, rfl,
    _, rfl⟩

theorem witness_ConfigureIsIdempotent :
    (∀ st en, (withRegion (empty 0) st en).ShapeOk) ∧
    (∃ t u, exec (.cfgOff 0 1 3) (withRegion (empty 0) 0x10 0x10) = .next t ∧ t.result = 0 ∧ exec (.cfgOff 0 1 3) t = .next u) ∧
    (∃ t u, exec (.cfgTor 0 1 3) (withRegion (empty 0) 0x10 0x20) = .next t ∧ t.result = 0 ∧ exec (.cfgTor 0 1 3) t = .next u) ∧
    (∃ t u, exec (.cfgNa4 0 1 3) (withRegion (empty 0) 0x10 0x14) = .next t ∧ t.result = 0 ∧ exec (.cfgNa4 0 1 3) t = .next u) ∧
    (∃ t u, exec (.cfgNapot 0 1 3) (withRegion (empty 0) 0x10 0x20) = .next t ∧ t.result = 0 ∧
      exec (.cfgNapot 0 1 3) t = .next u) :=
  ⟨shape_empty 0 (by decide), ⟨_, _, rfl, by decide, rfl⟩, ⟨_, _, rfl, by decide, rfl⟩, ⟨_, _, rfl, by decide, rfl⟩,
    ⟨_, _, rfl, by decide, rfl⟩⟩

theorem wf_chain : (chain.bank 0).Wf 16 := by unfold Bank.Wf; decide

theorem witness_CommandsButReadKeepBanksWellFormed :
    (∀ b, Instr.cfgOff 0 0 5 ≠ .read b) ∧ (∃ t, exec (.cfgOff 0 0 5) (withRegion chain 0x10 0x10) = .next t) ∧
    ((withRegion chain 0x10 0x10).bank 0).Wf (withRegion chain 0x10 0x10).params.N :=
  ⟨fun _ => nofun, ⟨_, rfl⟩, wf_chain⟩

theorem witness_TorBaseIsNotChangedFromOutside :
    (withRegion chain 0x14 0x14).ShapeOk ∧ (∃ t, exec (.cfgOff 0 0 5) (withRegion chain 0x14 0x14) = .next t) ∧
    1 < (withRegion chain 0x14 0x14).params.N ∧ ((withRegion chain 0x14 0x14).bank 0).mode 1 = .tor ∧
    (∀ perm, Instr.cfgOff 0 0 5 ≠ .cfgTor 0 1 perm) :=
  ⟨shape_chain _ _, ⟨_, rfl⟩, by decide, rfl, fun _ => nofun⟩

theorem allDecode_chain : (chain.bank 0).AllDecode chain.params := by
  intro i hi
  have hi : i < 16 := hi
  interval_cases i <;> exact ⟨_, rfl⟩

theorem witness_ConfigureKeepsEveryEntryDecodable :
    (∃ t, exec (.cfgTor 0 2 3) (withRegion chain 0x20 0x30) = .next t) ∧
    ((withRegion chain 0x20 0x30).bank 0).AllDecode (withRegion chain 0x20 0x30).params :=
  ⟨⟨_, rfl⟩, allDecode_chain⟩

theorem witness_ConfiguredBanksAlwaysDecode :
    ∃ s, ConfigureReach State.reset s ∧ 0 < State.reset.params.numBanks ∧ 15 < State.reset.params.N :=
  ⟨_, .more _ _ (.cfgTor 0 0 3) 0x00003001 0 0x10 .start rfl rfl, by decide, by decide⟩

/-! Banks of one entry, or two, for DECODE. -/

def oneEntry (c : Byte) (a : Word) : State := bench 0 [⟨c, a⟩] (file [] [] 0) []

def twoEntries (c0 : Byte) (a0 : Word) (c1 : Byte) (a1 : Word) : State := bench 0 [⟨c0, a0⟩, ⟨c1, a1⟩] (file [] [] 0) []

theorem witness_DecodeOffEntry :
    0 < (oneEntry 0x85 0x3FFFFFFF).params.numBanks ∧ 0 < (oneEntry 0x85 0x3FFFFFFF).params.N ∧
    ¬ CfgByteBad (((oneEntry 0x85 0x3FFFFFFF).bank 0).cfg 0) ∧ ((oneEntry 0x85 0x3FFFFFFF).bank 0).mode 0 = .off ∧
    (((oneEntry 0x85 0x3FFFFFFF).bank 0).addr 0).toNat < 2 ^ 30 := by unfold CfgByteBad; decide

/-- Entry 0 with the empty range at 0, and entry 1 at the top of the space above a TOR entry. -/
theorem witness_DecodeTorEntry :
    0 < (oneEntry 0x0B 0).params.numBanks ∧ 0 < (oneEntry 0x0B 0).params.N ∧
    0 < (twoEntries 0x0D 4 0x0B 0x3FFFFFFF).params.numBanks ∧ 1 < (twoEntries 0x0D 4 0x0B 0x3FFFFFFF).params.N ∧
    ¬ CfgByteBad (((oneEntry 0x0B 0).bank 0).cfg 0) ∧ ((oneEntry 0x0B 0).bank 0).mode 0 = .tor ∧
    (0 : Word).toNat ≤ (((oneEntry 0x0B 0).bank 0).addr 0).toNat ∧
    ¬ CfgByteBad (((twoEntries 0x0D 4 0x0B 0x3FFFFFFF).bank 0).cfg 1) ∧
    ((twoEntries 0x0D 4 0x0B 0x3FFFFFFF).bank 0).mode 1 = .tor ∧
    ((twoEntries 0x0D 4 0x0B 0x3FFFFFFF).bank 0).addr 0 = 4 ∧ ((twoEntries 0x0D 4 0x0B 0x3FFFFFFF).bank 0).mode 0 = .tor ∧
    (4 : Word).toNat ≤ (((twoEntries 0x0D 4 0x0B 0x3FFFFFFF).bank 0).addr 1).toNat ∧
    (((twoEntries 0x0D 4 0x0B 0x3FFFFFFF).bank 0).addr 1).toNat < 2 ^ 30 := by unfold CfgByteBad; decide

theorem witness_DecodeNa4Entry :
    0 < (oneEntry 0x11 0x3FFFFFFE).params.numBanks ∧ 0 < (oneEntry 0x11 0x3FFFFFFE).params.N ∧
    ¬ CfgByteBad (((oneEntry 0x11 0x3FFFFFFE).bank 0).cfg 0) ∧ ((oneEntry 0x11 0x3FFFFFFE).bank 0).mode 0 = .na4 ∧
    (((oneEntry 0x11 0x3FFFFFFE).bank 0).addr 0).toNat < 2 ^ 30 - 1 := by unfold CfgByteBad; decide

/-- `k = 28, m = 0` and `k = 0, m = 10`. -/
theorem witness_DecodeNapotEntry :
    0 < (oneEntry 0x1F 0x0FFFFFFF).params.numBanks ∧ 0 < (oneEntry 0x1F 0x0FFFFFFF).params.N ∧
    ¬ CfgByteBad (((oneEntry 0x1F 0x0FFFFFFF).bank 0).cfg 0) ∧ ((oneEntry 0x1F 0x0FFFFFFF).bank 0).mode 0 = .napot ∧
    (((oneEntry 0x1F 0x0FFFFFFF).bank 0).addr 0).toNat = 0 * 2 ^ (28 + 1) + (2 ^ 28 - 1) ∧
    (0 + 1) * 2 ^ (28 + 3) < 2 ^ 32 ∧
    ¬ CfgByteBad (((oneEntry 0x18 0x14).bank 0).cfg 0) ∧ ((oneEntry 0x18 0x14).bank 0).mode 0 = .napot ∧
    (((oneEntry 0x18 0x14).bank 0).addr 0).toNat = 10 * 2 ^ (0 + 1) + (2 ^ 0 - 1) := by unfold CfgByteBad; decide

theorem witness_DecodeRejectsInvalidByte :
    0 < (oneEntry 0x20 0).params.numBanks ∧ 0 < (oneEntry 0x20 0).params.N ∧
    CfgByteBad (((oneEntry 0x20 0).bank 0).cfg 0) ∧ CfgByteBad (((oneEntry 0x40 0).bank 0).cfg 0) ∧
    CfgByteBad (((oneEntry 0x0A 0).bank 0).cfg 0) := by unfold CfgByteBad; decide

/-- Above an NA4 entry, above a NAPOT entry, and with the top below the base. -/
theorem witness_DecodeRejectsBrokenTorPair :
    0 < (twoEntries 0x17 8 0x0B 0x10).params.numBanks ∧ 1 < (twoEntries 0x17 8 0x0B 0x10).params.N ∧
    ((twoEntries 0x17 8 0x0B 0x10).bank 0).mode 1 = .tor ∧ ((twoEntries 0x17 8 0x0B 0x10).bank 0).mode 0 = .na4 ∧
    ((twoEntries 0x1F 5 0x0B 0x10).bank 0).mode 1 = .tor ∧ ((twoEntries 0x1F 5 0x0B 0x10).bank 0).mode 0 = .napot ∧
    ((twoEntries 0x00 8 0x0B 7).bank 0).mode 1 = .tor ∧
    (((twoEntries 0x00 8 0x0B 7).bank 0).addr 1).toNat < (((twoEntries 0x00 8 0x0B 7).bank 0).addr 0).toNat := by decide

/-- The least word of each clause: V-D17, V-D18, V-D15, V-D11, V-D13. -/
theorem witness_DecodeRejectsUnrepresentableWord :
    0 < (oneEntry 0x00 0x40000000).params.numBanks ∧ 0 < (oneEntry 0x00 0x40000000).params.N ∧
    (((oneEntry 0x00 0x40000000).bank 0).mode 0 = .off ∧ 2 ^ 30 ≤ (((oneEntry 0x00 0x40000000).bank 0).addr 0).toNat) ∧
    (((oneEntry 0x0B 0x40000000).bank 0).mode 0 = .tor ∧ 2 ^ 30 ≤ (((oneEntry 0x0B 0x40000000).bank 0).addr 0).toNat) ∧
    (((oneEntry 0x11 0x3FFFFFFF).bank 0).mode 0 = .na4 ∧
      2 ^ 30 - 1 ≤ (((oneEntry 0x11 0x3FFFFFFF).bank 0).addr 0).toNat) ∧
    (((oneEntry 0x1F 0x1FFFFFFF).bank 0).mode 0 = .napot ∧
      (((oneEntry 0x1F 0x1FFFFFFF).bank 0).addr 0).toNat % 2 ^ 29 = 2 ^ 29 - 1) ∧
    ((oneEntry 0x1F 0x2FFFFFFF).bank 0).mode 0 = .napot ∧
    (((oneEntry 0x1F 0x2FFFFFFF).bank 0).addr 0).toNat = 1 * 2 ^ (28 + 1) + (2 ^ 28 - 1) ∧
    2 ^ 32 ≤ (1 + 1) * 2 ^ (28 + 3) := by decide

theorem witness_DecodeIsReadOnly : ∃ t, exec (.decode 0 1) chain = .next t := ⟨_, rfl⟩

/-- Each mode, with and without a later command, and the one exception. -/
theorem witness_DecodeInvertsConfigure :
    (∀ st en, (withRegion (empty 0) st en).ShapeOk) ∧
    (∃ t u, exec (.cfgOff 0 1 3) (withRegion (empty 0) 0x103 0x103) = .next t ∧ t.result = 0 ∧ OtherConfigures 0 1 true t u) ∧
    (∃ t u, exec (.cfgTor 0 1 3) (withRegion (empty 0) 0x10 0x20) = .next t ∧ t.result = 0 ∧ OtherConfigures 0 1 false t u) ∧
    (∃ t u, exec (.cfgNa4 0 1 3) (withRegion (empty 0) 0x10 0x14) = .next t ∧ t.result = 0 ∧ OtherConfigures 0 1 false t u) ∧
    (∃ t u, exec (.cfgNapot 0 1 3) (withRegion (empty 0) 0x10 0x20) = .next t ∧ t.result = 0 ∧
      OtherConfigures 0 1 false t u) ∧
    (∃ t v, exec (.cfgOff 0 1 3) (withRegion (empty 0) 0x103 0x103) = .next t ∧ t.result = 0 ∧ OtherConfigures 0 1 true t t ∧
      exec (.cfgTor 0 2 3) (t.samplePorts 0x00003021 0x40 0x50) = .next v ∧ v.result = 0) :=
  ⟨shape_empty 0 (by decide), ⟨_, _, rfl, by decide, .start⟩,
    ⟨_, _, rfl, by decide, .more _ _ (.cfgTor 0 2 3) 0x00003021 0x20 0x30 .start rfl (fun _ => nofun) nofun rfl⟩,
    ⟨_, _, rfl, by decide, .start⟩, ⟨_, _, rfl, by decide, .start⟩, ⟨_, _, rfl, by decide, .start, rfl, by decide⟩⟩

theorem witness_DecodedRegionOutlivesOtherCommands :
    (withRegion chain 0x20 0x30).ShapeOk ∧ 0 < chain.params.numBanks ∧
    (∃ t, exec (.cfgTor 0 2 3) (withRegion chain 0x20 0x30) = .next t) ∧
    (∃ d, decodeEntry chain.params (chain.bank 0) 1 = .ok d) ∧ Instr.entry? (.cfgTor 0 2 3) ≠ some 1 ∧
    (chain.bank 0).mode 1 ≠ .off := ⟨shape_chain _ _, by decide, ⟨_, rfl⟩, ⟨_, rfl⟩, by decide, by decide⟩

theorem witness_CommitWritesEveryRegister :
    (withRegion (built committedFile []) 0 0).ShapeOk ∧ 1 < (withRegion (built committedFile []) 0 0).params.numBanks ∧
    ¬ SomeAccessFails (withRegion (built committedFile []) 0 0) 20 ∧
    (withRegion (built committedFile []) 0 0).params.backend = .reference :=
  ⟨shape_built _ _ _, by decide, no_draw_fails _ _ rfl, rfl⟩

/-- The last write fails. -/
theorem witness_CommitStopsAtFirstFailedWrite :
    0 < (built committedFile (List.replicate 19 false ++ [true])).params.numBanks ∧
    19 < bankAccesses (empty 0).params ∧
    (∀ k, k < 19 → (built committedFile (List.replicate 19 false ++ [true])).draws.getD k false = false) ∧
    (built committedFile (List.replicate 19 false ++ [true])).draws.getD 19 false = true := by decide

theorem witness_ReadLoadsTheWholeBank :
    (withRegion (built committedFile []) 0 0).ShapeOk ∧ 1 < (withRegion (built committedFile []) 0 0).params.numBanks ∧
    ¬ SomeAccessFails (withRegion (built committedFile []) 0 0) 20 :=
  ⟨shape_built _ _ _, by decide, no_draw_fails _ _ rfl⟩

theorem witness_ReadFailureLeavesTheBank :
    1 < (built committedFile (List.replicate 19 false ++ [true])).params.numBanks ∧
    SomeAccessFails (built committedFile (List.replicate 19 false ++ [true])) (bankAccesses (empty 0).params) :=
  ⟨by decide, 19, by decide, rfl⟩

/-- A failed last read; a file that shows the bank and the posture; and one that does not show the posture. -/
theorem witness_VerifyAnswersWhatTheCsrsShow :
    (withRegion (built committedFile []) 0 0).ShapeOk ∧ 0 < (built committedFile []).params.numBanks ∧
    SomeAccessFails (built committedFile (List.replicate 20 false ++ [true])) (bankAccesses (empty 0).params + 1) ∧
    ¬ SomeAccessFails (built committedFile []) (bankAccesses (empty 0).params + 1) ∧
    CsrShows (built committedFile []).params committedFile ((built committedFile []).bank 0) ∧
    PostureShows (built committedFile []).params committedFile 6 ∧
    ¬ PostureShows (built committedFile []).params committedFile 7 := by
  refine ⟨shape_built _ _ _, by decide, ⟨20, by decide, rfl⟩, no_draw_fails _ _ rfl, ?_, rfl, ?_⟩
  · intro i hi
    have hi : i < 16 := hi
    interval_cases i <;> exact ⟨rfl, rfl⟩
  · unfold PostureShows; decide

/-- With nothing changed, and with one bit of pmpaddr[15] changed. -/
theorem witness_VerifyCatchesDrift :
    (withRegion (built committedFile []) 0 0).ShapeOk ∧
    (withRegion (built committedFile []) 0 0).params.backend = .reference ∧
    ∃ t, exec (.commit 0) (withRegion (built committedFile []) 0 0) = .next t ∧ t.result = 0 ∧
      (∃ v, exec (.verify 0 6) { t with csr := t.csr, draws := [] } = .next v) ∧
      (∃ v, exec (.verify 0 6) { t with csr := csrSet t.csr (.pmpaddr 15) 1, draws := [] } = .next v) ∧
      (csrSet t.csr (.pmpaddr 15) 1).pmpaddr.length = t.csr.pmpaddr.length :=
  ⟨shape_built _ _ _, rfl, _, rfl, by decide, ⟨_, rfl⟩, ⟨_, rfl⟩, by decide⟩

theorem witness_VerifyAfterReadSucceeds :
    (withRegion (built committedFile []) 0 0).ShapeOk ∧
    ∃ t, exec (.read 1) (withRegion (built committedFile []) 0 0) = .next t ∧ t.result = 0 ∧ ¬ SomeAccessFails t 21 :=
  ⟨shape_built _ _ _, _, rfl, by decide, no_draw_fails _ _ rfl⟩

theorem witness_AccessesTakeDrawsInOrder :
    (∃ t, exec (.commit 0) (built committedFile []) = .next t) ∧ (∃ t, exec (.read 0) (built committedFile []) = .next t) ∧
    (∃ t, exec (.verify 0 6) (built committedFile []) = .next t) ∧ (∃ t, exec (.decode 0 0) (built committedFile []) = .next t) ∧
    ¬ SomeAccessFails (built committedFile []) 20 ∧
    0 < (built committedFile (List.replicate 19 false ++ [true])).params.numBanks ∧
    19 < bankAccesses (empty 0).params ∧
    (∀ k, k < 19 → (built committedFile (List.replicate 19 false ++ [true])).draws.getD k false = false) ∧
    (built committedFile (List.replicate 19 false ++ [true])).draws.getD 19 false = true :=
  ⟨⟨_, rfl⟩, ⟨_, rfl⟩, ⟨_, rfl⟩, ⟨_, rfl⟩, no_draw_fails _ _ rfl, witness_CommitStopsAtFirstFailedWrite⟩

/-- A command of each kind, for the statements of all commands. -/
theorem witness_AllCommands :
    (∃ t, exec (.cfgTor 0 2 3) (withRegion chain 0x20 0x30) = .next t) ∧ (∃ t, exec (.decode 0 0) chain = .next t) ∧
    (∃ t, exec (.commit 0) chain = .next t) ∧ (∃ t, exec (.read 0) chain = .next t) ∧
    (∃ t, exec (.verify 0 6) chain = .next t) ∧ Instr.isCommit (.read 0) = false ∧ Instr.isConfigure (.commit 0) = false ∧
    (∀ b, Instr.commit 0 ≠ .read b) := ⟨⟨_, rfl⟩, ⟨_, rfl⟩, ⟨_, rfl⟩, ⟨_, rfl⟩, ⟨_, rfl⟩, rfl, rfl, fun _ => nofun⟩

theorem witness_LiveTorBoundaryIsNotMoved :
    1 < chain.params.N ∧ (chain.bank 0).mode 0 = .tor ∧ (chain.bank 0).mode 1 = .tor ∧
    ¬ BadArgCause (withRegion chain 0 0x18) 0 1 3 ∧ 0x18 % 2 ^ (2 + chain.params.G) = 0 ∧
    (∃ t, exec (.cfgTor 0 0 3) (withRegion chain 0 0x18) = .next t) ∧ (0x18 : Word) >>> 2 ≠ (chain.bank 0).addr 0 ∧
    (∃ u, exec (.cfgTor 0 1 3) (withRegion chain 0 0x18) = .next u) ∧ (0 : Word) >>> 2 ≠ (chain.bank 0).addr 0 := by
  refine ⟨by decide, rfl, rfl, ?_, by decide, ⟨_, rfl⟩, by decide, ⟨_, rfl⟩, by decide⟩
  unfold BadArgCause; decide

end Sys2Proof.Tests
end

section
/-! SUPPORT. The shape of the state (00_scope.md R11, R14; 10_state.md R24, R31): each update of the state keeps it, so each
command and each step does, and a launch has it. -/

namespace Sys2Proof.Machine

/-! ### What a step can do -/

/-- All that a command on the sampled CMD port can do (R79). -/
theorem runCommand_cases {s t : State} (ht : runCommand s = .next t) :
    (∃ c, decode s.portCmd = .ok c ∧ exec c s = .next t) ∨
    (∃ e, decode s.portCmd = .error e ∧ t = s.rejectWord) := by
  unfold runCommand at ht
  cases hd : decode s.portCmd with
  | ok c => rw [hd] at ht; exact .inl ⟨c, rfl, ht⟩
  | error e => rw [hd] at ht; cases ht; exact .inr ⟨e, rfl, rfl⟩

/-- All that a step can do (R57, R161): wait, run a command, let the environment write, or reset. -/
theorem step_cases {s t : State} (ht : step s = .next t) :
    (s.inputs = [] ∧ t = s) ∨
    (∃ cmd start stop rest, s.inputs = .command cmd start stop :: rest ∧
      runCommand ((s.setInputs rest).samplePorts cmd start stop) = .next t) ∨
    (∃ r v rest, s.inputs = .envWrite r v :: rest ∧ t = (s.setInputs rest).envWrite r v) ∨
    (∃ rest, s.inputs = .reset :: rest ∧ t = (s.setInputs rest).resetBlock) := by
  unfold step at ht
  split at ht
  · next hi => cases ht; exact .inl ⟨hi, rfl⟩
  · next cmd start stop rest hi => exact .inr (.inl ⟨cmd, start, stop, rest, hi, ht⟩)
  · next r v rest hi => cases ht; exact .inr (.inr (.inl ⟨r, v, rest, hi, rfl⟩))
  · next rest hi => cases ht; exact .inr (.inr (.inr ⟨rest, hi, rfl⟩))

/-! ### The updates of a state keep its shape -/

/-- The shape is a fact about the parameters, the banks and the CSR file alone. -/
theorem State.ShapeOk.congr {s t : State} (h : s.ShapeOk) (hp : t.params = s.params) (hb : t.banks = s.banks)
    (hc : t.csr = s.csr) : t.ShapeOk := by
  unfold State.ShapeOk
  rw [hp, hb, hc]
  exact h

theorem State.ShapeOk.finish {s : State} (h : s.ShapeOk) (f : Option Failure) : (s.finish f).ShapeOk :=
  h.congr rfl rfl rfl

theorem State.ShapeOk.finishDecode {s : State} (h : s.ShapeOk) (d : Decoded) : (s.finishDecode d).ShapeOk :=
  h.congr rfl rfl rfl

theorem State.ShapeOk.setDraws {s : State} (h : s.ShapeOk) (ds : List Bool) : (s.setDraws ds).ShapeOk :=
  h.congr rfl rfl rfl

theorem State.ShapeOk.setInputs {s : State} (h : s.ShapeOk) (ins : List Input) : (s.setInputs ins).ShapeOk :=
  h.congr rfl rfl rfl

theorem State.ShapeOk.samplePorts {s : State} (h : s.ShapeOk) (cmd start stop : Word) :
    (s.samplePorts cmd start stop).ShapeOk :=
  h.congr rfl rfl rfl

/-- A bank of N entries may take the place of any bank. -/
theorem State.ShapeOk.setBank {s : State} (h : s.ShapeOk) (b : Nat) {bk : Bank} (hbk : bk.entries.length = s.params.N) :
    (s.setBank b bk).ShapeOk := by
  obtain ⟨hwf, hnum, hlen, hcfg, haddr⟩ := h
  refine ⟨hwf, (State.length_setBank s b bk).trans hnum, fun bk' hmem => ?_, hcfg, haddr⟩
  rcases List.mem_or_eq_of_mem_set hmem with hold | rfl
  · exact hlen bk' hold
  · exact hbk

/-- A CSR file of the same sizes may take the place of the CSR file. -/
theorem State.ShapeOk.setCsr {s : State} (h : s.ShapeOk) {c : CsrFile} (ds : List Bool)
    (hcfg : c.pmpcfg.length = s.csr.pmpcfg.length) (haddr : c.pmpaddr.length = s.csr.pmpaddr.length) :
    (s.setCsr c ds).ShapeOk := by
  obtain ⟨hwf, hnum, hlen, hcfg', haddr'⟩ := h
  exact ⟨hwf, hnum, hlen, hcfg.trans hcfg', haddr.trans haddr'⟩

theorem State.ShapeOk.envWrite {s : State} (h : s.ShapeOk) (r : CsrReg) (v : Word) : (s.envWrite r v).ShapeOk :=
  (h.setCsr s.draws (csrSet_pmpcfg_length s.csr r v) (csrSet_pmpaddr_length s.csr r v)).congr rfl rfl rfl

theorem length_of_mem_emptyBanks {p : Params} {bk : Bank} (h : bk ∈ emptyBanks p) : bk.entries.length = p.N := by
  obtain rfl := List.eq_of_mem_replicate h
  exact List.length_replicate

theorem State.ShapeOk.resetBlock {s : State} (h : s.ShapeOk) : s.resetBlock.ShapeOk := by
  obtain ⟨hwf, -, -, hcfg, haddr⟩ := h
  exact ⟨hwf, List.length_replicate, fun _ => length_of_mem_emptyBanks, hcfg, haddr⟩

/-! ### Commands keep the shape -/

theorem configure_keeps_shape {c : Instr} (hc : c.isConfigure = true) {s t : State} (h : s.ShapeOk)
    (ht : exec c s = .next t) : t.ShapeOk := by
  rcases configure_cases hc ht with ⟨hb, -, rfl⟩ | ⟨f, rfl⟩
  · exact (h.setBank c.bank ((confBank_length ..).trans (h.bank_length hb))).finish none
  · exact h.finish (some f)

theorem State.ShapeOk.decoded {s : State} (h : s.ShapeOk) (b i : Nat) : (s.decoded b i).ShapeOk := by
  rcases decoded_cases s b i with ⟨-, e⟩ | ⟨-, ⟨d, -, e⟩ | ⟨f, -, e⟩⟩ <;> rw [e]
  · exact h.finish _
  · exact h.finishDecode d
  · exact h.finish _

/-- COMMIT replaces registers and adds none, also when an access fails (R130, R132). -/
theorem State.ShapeOk.committed {s : State} (h : s.ShapeOk) (b : Nat) : (s.committed b).ShapeOk := by
  rcases committed_cases s b with ⟨-, e⟩ | ⟨-, e⟩ <;> rw [e]
  · exact h.finish _
  · obtain ⟨hcfg, haddr⟩ := csrWrites_lengths s.params (commitWrites s.params (s.bank b)) s.draws s.csr
    exact (h.setCsr _ hcfg haddr).finish _

/-- READ makes a bank of N entries, whatever the registers show (R135, R136). -/
theorem State.ShapeOk.readInto {s : State} (h : s.ShapeOk) (b : Nat) : (s.readInto b).ShapeOk := by
  rcases readInto_cases s b with ⟨-, e⟩ | ⟨-, ⟨ws, -, e⟩ | ⟨-, e⟩⟩ <;> rw [e]
  · exact h.finish _
  · exact ((h.setDraws _).setBank b (bankOfWords_length _ ws)).finish none
  · exact (h.setDraws _).finish _

theorem State.ShapeOk.verified {s : State} (h : s.ShapeOk) (b : Nat) (q : Posture) : (s.verified b q).ShapeOk := by
  rcases verified_cases s b q with ⟨-, e⟩ | ⟨-, e⟩ <;> rw [e]
  · exact h.finish _
  · exact (h.setDraws _).finish _

/-- Every command keeps the shape, whatever it answers. -/
theorem exec_keeps_shape {c : Instr} {s t : State} (h : s.ShapeOk) (ht : exec c s = .next t) : t.ShapeOk := by
  cases c with
  | cfgOff b i perm => exact configure_keeps_shape rfl h ht
  | cfgTor b i perm => exact configure_keeps_shape rfl h ht
  | cfgNa4 b i perm => exact configure_keeps_shape rfl h ht
  | cfgNapot b i perm => exact configure_keeps_shape rfl h ht
  | decode b i => rw [exec_decode] at ht; cases ht; exact h.decoded b i
  | commit b => rw [exec_commit] at ht; cases ht; exact h.committed b
  | read b => rw [exec_read] at ht; cases ht; exact h.readInto b
  | verify b q => rw [exec_verify] at ht; cases ht; exact h.verified b q

theorem runCommand_keeps_shape {s t : State} (h : s.ShapeOk) (ht : runCommand s = .next t) : t.ShapeOk := by
  rcases runCommand_cases ht with ⟨c, -, hex⟩ | ⟨e, -, rfl⟩
  · exact exec_keeps_shape h hex
  · exact h.finish (some .error)

/-! ### Launches have the shape -/

/-- Whatever parameters in their ranges and whatever CSR file of their sizes a launch has, it has the shape. -/
theorem launch_shapeOk {p : Params} {c0 : CsrFile} (hwf : p.Wf) (hcfg : c0.pmpcfg.length = p.N / 4)
    (haddr : c0.pmpaddr.length = p.N) (result : BitVec 3) (out : Decoded) (ins : List Input) (ds : List Bool) :
    (State.launch p c0 result out ins ds).ShapeOk :=
  ⟨hwf, List.length_replicate, fun _ => length_of_mem_emptyBanks, hcfg, haddr⟩

/-! ### The obligations -/

/-- Settles O10, by the four things a step can do: none of them changes the size of a table. -/
theorem stepKeepsShape : Obligations.StepKeepsShape := by
  intro s t h ht
  rcases step_cases ht with ⟨-, rfl⟩ | ⟨cmd, start, stop, rest, -, hrun⟩ | ⟨r, v, rest, -, rfl⟩ | ⟨rest, -, rfl⟩
  · exact h
  · exact runCommand_keeps_shape ((h.setInputs rest).samplePorts cmd start stop) hrun
  · exact (h.setInputs rest).envWrite r v
  · exact (h.setInputs rest).resetBlock

/-- Settles O11: reset is the launch of the standard parameters, which are in their ranges, with a zero CSR file of
their sizes. -/
theorem resetHasShape : Obligations.ResetHasShape :=
  have hwf : Params.standard.Wf := by decide
  launch_shapeOk hwf List.length_replicate List.length_replicate ..

end Sys2Proof.Machine
end

section
/-! SUPPORT. The state and what leaves it alone (10_state.md): the steps between two commands and the banks after reset, what
a command can write, the frame of the configure commands, and their second run. -/

namespace Sys2Proof.Machine

/-! ### One step, by the next input -/

theorem step_of_no_input {s : State} (h : s.inputs = []) : step s = .next s := by
  unfold step
  rw [h]

/-- A command is decoded from the port it was sampled on (R28, R55). -/
theorem step_of_command {s : State} {cmd start stop : Word} {rest : List Input} {c : Instr}
    (h : s.inputs = .command cmd start stop :: rest) (hd : decode cmd = .ok c) :
    step s = exec c ((s.setInputs rest).samplePorts cmd start stop) := by
  unfold step
  rw [h]
  simp only [runCommand, State.samplePorts_portCmd, hd]

theorem step_of_envWrite {s : State} {r : CsrReg} {v : Word} {rest : List Input} (h : s.inputs = .envWrite r v :: rest) :
    step s = .next ((s.setInputs rest).envWrite r v) := by
  unfold step
  rw [h]

theorem step_of_reset {s : State} {rest : List Input} (h : s.inputs = .reset :: rest) :
    step s = .next (s.setInputs rest).resetBlock := by
  unfold step
  rw [h]

/-! ### The empty bank -/

/-- DECODE of an empty entry: OFF, the region `{0, 0}`, unlocked-none (R38). -/
theorem decodeEntry_empty {p : Params} {i : Nat} (h : i < p.N) :
    decodeEntry p (Bank.empty p.N) i = .ok { start := 0, stop := 0, perm := 0 } := by
  obtain ⟨hcfg, haddr, hmode⟩ := Bank.of_entry (Bank.entry_empty p.N i)
  have hbounds : entryBounds (Bank.empty p.N) i = some (0, 0) := by
    rw [entryBounds_off (hmode.trans (by decide)), haddr]
    rfl
  rw [decodeEntry_ok_iff, hcfg]
  exact ⟨h, by decide, 0, 0, hbounds, by decide, by decide, by decide⟩

/-! ### What a command can write -/

/-- All that a command can write: draws and output ports only; the bank it names, for a configure command or READ; or the
CSR file by the writes of COMMIT. -/
theorem exec_writes {c : Instr} {s t : State} (ht : exec c s = .next t) :
    (∃ ds f, t = (s.setDraws ds).finish f) ∨
    (∃ d, t = s.finishDecode d) ∨
    ((c.isConfigure = true ∨ ∃ b, c = .read b) ∧ ∃ ds bk, t = ((s.setDraws ds).setBank c.bank bk).finish none) ∨
    (∃ b f, c = .commit b ∧ t = (s.setCsr (s.commitRun b).csr (s.commitRun b).draws).finish f) := by
  by_cases hc : c.isConfigure = true
  · rcases configure_cases hc ht with ⟨-, -, e⟩ | ⟨f, e⟩
    · exact .inr (.inr (.inl ⟨.inl hc, s.draws, _, e⟩))
    · exact .inl ⟨s.draws, _, e⟩
  cases c with
  | cfgOff b i perm => exact absurd rfl hc
  | cfgTor b i perm => exact absurd rfl hc
  | cfgNa4 b i perm => exact absurd rfl hc
  | cfgNapot b i perm => exact absurd rfl hc
  | decode b i =>
    rw [exec_decode] at ht
    cases ht
    rcases decoded_cases s b i with ⟨-, e⟩ | ⟨-, ⟨d, -, e⟩ | ⟨f, -, e⟩⟩
    · exact .inl ⟨s.draws, _, e⟩
    · exact .inr (.inl ⟨d, e⟩)
    · exact .inl ⟨s.draws, _, e⟩
  | commit b =>
    rw [exec_commit] at ht
    cases ht
    rcases committed_cases s b with ⟨-, e⟩ | ⟨-, e⟩
    · exact .inl ⟨s.draws, _, e⟩
    · exact .inr (.inr (.inr ⟨b, _, rfl, e⟩))
  | read b =>
    rw [exec_read] at ht
    cases ht
    rcases readInto_cases s b with ⟨-, e⟩ | ⟨-, ⟨ws, -, e⟩ | ⟨-, e⟩⟩
    · exact .inl ⟨s.draws, _, e⟩
    · exact .inr (.inr (.inl ⟨.inr ⟨b, rfl⟩, _, _, e⟩))
    · exact .inl ⟨_, _, e⟩
  | verify b q =>
    rw [exec_verify] at ht
    cases ht
    rcases verified_cases s b q with ⟨-, e⟩ | ⟨-, e⟩
    · exact .inl ⟨s.draws, _, e⟩
    · exact .inl ⟨_, _, e⟩

/-- COMMIT writes no mseccfg, whatever fails (R34). -/
theorem commitRun_mseccfg (s : State) (b : Nat) : (s.commitRun b).csr.mseccfg = s.csr.mseccfg :=
  csrWrites_mseccfg _ _ _ _ (commitWrites_ne_mseccfg _ _)

theorem sameOtherBanks_setBank (s : State) (b : Nat) (bk : Bank) : SameOtherBanks b s (s.setBank b bk) :=
  ⟨State.length_setBank s b bk, fun c hc => State.bank_setBank_ne s b c bk hc⟩

theorem sameOtherBanks_of_banks_eq {s t : State} (b : Nat) (h : t.banks = s.banks) : SameOtherBanks b s t :=
  ⟨congrArg List.length h, fun c _ => State.bank_congr h c⟩

/-! ### The frame of the configure commands -/

/-- What the four configure commands have in common as functions of bank, entry and permission. -/
structure ConfigureForm (k : Nat → Nat → Nibble → Instr) : Prop where
  isConfigure : ∀ b i perm, (k b i perm).isConfigure = true
  bank : ∀ b i perm, (k b i perm).bank = b
  entry : ∀ b i perm, (k b i perm).entry? = some i
  eq_cfgTor : ∀ {b i perm b' i' perm'}, k b i perm = .cfgTor b' i' perm' → b' = b ∧ i' = i ∧ perm' = perm

/-- What holds of every command of the common form holds of each configure command. -/
theorem forEachConfigure_of {P : (Nat → Nat → Nibble → Instr) → Prop} (h : ∀ k, ConfigureForm k → P k) :
    ForEachConfigure P :=
  ⟨h _ ⟨fun _ _ _ => rfl, fun _ _ _ => rfl, fun _ _ _ => rfl, nofun⟩,
    h _ ⟨fun _ _ _ => rfl, fun _ _ _ => rfl, fun _ _ _ => rfl, fun heq => by cases heq; exact ⟨rfl, rfl, rfl⟩⟩,
    h _ ⟨fun _ _ _ => rfl, fun _ _ _ => rfl, fun _ _ _ => rfl, nofun⟩,
    h _ ⟨fun _ _ _ => rfl, fun _ _ _ => rfl, fun _ _ _ => rfl, nofun⟩⟩

theorem configure_sameOutside {c : Instr} (hc : c.isConfigure = true) {s t : State} (ht : exec c s = .next t) :
    SameOutside s t := by
  rw [exec_configure c hc] at ht
  cases ht
  exact sameOutside_finishWrite ..

theorem configure_sameOtherBanks {c : Instr} (hc : c.isConfigure = true) {s t : State} (ht : exec c s = .next t) :
    SameOtherBanks c.bank s t := by
  rw [exec_configure c hc] at ht
  cases ht
  exact sameOtherBanks_finishWrite ..

/-- What holds of the named bank and of the staged one holds of the bank a configure command leaves. -/
theorem configure_bank_of {P : Bank → Prop} {c : Instr} (hc : c.isConfigure = true) {s t : State}
    (ht : exec c s = .next t) (hold : P (s.bank c.bank))
    (hstaged : P (confBank c (s.bank c.bank) s.portStart s.portEnd)) : P (t.bank c.bank) := by
  rcases configure_cases hc ht with ⟨-, -, rfl⟩ | ⟨f, rfl⟩
  · exact State.bank_setBank_of s c.bank c.bank _ hold fun _ => hstaged
  · exact hold

/-- An entry the command does not name keeps its configuration byte (R86). -/
theorem configure_cfg_ne {c : Instr} (hc : c.isConfigure = true) {s t : State} (ht : exec c s = .next t) {j : Nat}
    (hj : c.entry? ≠ some j) : (t.bank c.bank).cfg j = (s.bank c.bank).cfg j :=
  configure_bank_of (P := fun bk => bk.cfg j = (s.bank c.bank).cfg j) hc ht rfl (confBank_cfg_ne c _ _ _ j hj)

/-- An entry the command does not name keeps its address word, but for the base that CFG_TOR writes (R94). -/
theorem configure_addr_ne {c : Instr} (hc : c.isConfigure = true) {s t : State} (ht : exec c s = .next t) {j : Nat}
    (hj : c.entry? ≠ some j) :
    (t.bank c.bank).addr j = (s.bank c.bank).addr j ∨
      (∃ b perm, c = .cfgTor b (j + 1) perm) ∧ (s.bank c.bank).mode j = .off := by
  refine configure_bank_of (P := fun bk => bk.addr j = (s.bank c.bank).addr j ∨ _) hc ht (.inl rfl) ?_
  rcases confBank_addr_ne c (s.bank c.bank) s.portStart s.portEnd j hj with h | ⟨htor, hm, -⟩
  · exact .inl h
  · exact .inr ⟨htor, hm⟩

/-! ### The second run of a configure command -/

theorem Bank.setEntry_setEntry (bk : Bank) (i : Nat) (e e' : Entry) :
    (bk.setEntry i e).setEntry i e' = bk.setEntry i e' := by
  simp [Bank.setEntry]

/-- CFG_TOR has no base to write when the word below is the base already. -/
theorem torBaseBank_eq_self {bk : Bank} {i : Nat} {s : Word}
    (h : ∀ j, j + 1 = i → bk.mode j = .off → j < bk.entries.length → bk.addr j = addrWord s) :
    torBaseBank bk i s = bk := by
  refine Bank.ext_entry (torBaseBank_length ..) fun j _ => ?_
  rw [torBaseBank_entry]
  split
  · next hj =>
    obtain ⟨hji, hm, hl⟩ := hj
    rw [← h j hji hm hl]
    rfl
  · rfl

/-- CFG_TOR leaves the base in an OFF entry below (R94). -/
theorem cfgTorBank_addr_below {bk : Bank} {j : Nat} (perm : Nibble) (s e : Word) (hm : bk.mode j = .off)
    (hl : j < bk.entries.length) : (cfgTorBank bk (j + 1) perm s e).addr j = addrWord s := by
  rw [cfgTorBank, Bank.addr, Bank.entry_setEntry_ne _ _ _ _ (by omega), torBaseBank_entry, if_pos ⟨rfl, hm, hl⟩]

/-- Staging the same command again stages the same bank (R37). -/
theorem confBank_confBank (c : Instr) (bk : Bank) (s e : Word) :
    confBank c (confBank c bk s e) s e = confBank c bk s e := by
  cases c with
  | cfgOff b i perm => exact Bank.setEntry_setEntry ..
  | cfgTor b i perm =>
    have hbase : torBaseBank (cfgTorBank bk i perm s e) i s = cfgTorBank bk i perm s e := by
      refine torBaseBank_eq_self fun j hj hm hl => ?_
      subst hj
      have hm' := confBank_mode_ne (.cfgTor b (j + 1) perm) bk s e j (by simp [Instr.entry?])
      have hl' := confBank_length (.cfgTor b (j + 1) perm) bk s e
      exact cfgTorBank_addr_below perm s e (hm'.symm.trans hm) (hl'.symm ▸ hl)
    show (torBaseBank (cfgTorBank bk i perm s e) i s).setEntry i _ = _
    rw [hbase]
    exact Bank.setEntry_setEntry ..
  | cfgNa4 b i perm => exact Bank.setEntry_setEntry ..
  | cfgNapot b i perm => exact Bank.setEntry_setEntry ..
  | decode b i => rfl
  | commit b => rfl
  | read b => rfl
  | verify b q => rfl

/-- The word the command writes is the word it asks of its entry (R107). -/
theorem baseHolderConflict_confBank {c : Instr} {p : Params} {bk : Bank} {s e : Word} {i : Nat} (hc : c.isConfigure = true)
    (hi : c.entry? = some i) (hl : i < bk.entries.length) :
    baseHolderConflict p (confBank c bk s e) i (confEntry c s e).addr = false :=
  (baseHolderConflict_eq_false ..).2 fun _ _ => congrArg Entry.addr (confBank_entry_self c bk s e i hc hi hl)

/-- The entry above is TOR exactly if it was: its mode stays (R109). -/
theorem naSlotConflict_confBank {c : Instr} (p : Params) (bk : Bank) (s e : Word) {i : Nat} (hi : c.entry? = some i) :
    naSlotConflict p (confBank c bk s e) i = naSlotConflict p bk i := by
  rw [naSlotConflict, naSlotConflict, confBank_mode_ne c bk s e (i + 1) (by simp [hi])]

/-- The entry below still holds the base: CFG_TOR keeps its mode, and its word is the old one or the base (R93, R95). -/
theorem torChainConflict_confBank {bk : Bank} {i : Nat} {s : Word} (b : Nat) (perm : Nibble) (e : Word)
    (h : torChainConflict bk i s = false) : torChainConflict (confBank (.cfgTor b i perm) bk s e) i s = false := by
  obtain ⟨hzero, hbelow⟩ := (torChainConflict_eq_false ..).1 h
  refine (torChainConflict_eq_false ..).2 ⟨hzero, fun hpos => ?_⟩
  have hne : Instr.entry? (.cfgTor b i perm) ≠ some (i - 1) := fun heq => by
    have := Option.some.inj heq
    omega
  rw [confBank_mode_ne _ bk s e _ hne]
  rcases hbelow hpos with hoff | ⟨htor, hword⟩
  · exact .inl hoff
  · rcases confBank_addr_ne _ bk s e _ hne with hkept | ⟨-, -, hbase⟩
    · exact .inr ⟨htor, hkept.trans hword⟩
    · exact .inr ⟨htor, hbase⟩

/-- Checks that passed pass again on the bank that was staged (R37, R96). -/
theorem confChecks_pass_again {c : Instr} {p : Params} {bk : Bank} {s e : Word} (hl : bk.entries.length = p.N)
    (hc : c.isConfigure = true) (hf : firstFailure (confChecks c p bk s e) = none) :
    firstFailure (confChecks c p (confBank c bk s e) s e) = none := by
  have hlt : ∀ i, c.entry? = some i → i < bk.entries.length := fun i hi => hl.symm ▸ entry_lt_of_passes hc hi hf
  cases c with
  | cfgOff b i perm =>
    obtain ⟨hcommon, hregion, -⟩ := (cfgOff_passes ..).1 hf
    exact (cfgOff_passes ..).2 ⟨hcommon, hregion, baseHolderConflict_confBank hc rfl (hlt i rfl)⟩
  | cfgTor b i perm =>
    obtain ⟨hcommon, hgrain, hchain, -⟩ := (cfgTor_passes ..).1 hf
    exact (cfgTor_passes ..).2 ⟨hcommon, hgrain, torChainConflict_confBank b perm e hchain,
      baseHolderConflict_confBank hc rfl (hlt i rfl)⟩
  | cfgNa4 b i perm =>
    obtain ⟨hcommon, hG, hlen, halign, hslot⟩ := (cfgNa4_passes ..).1 hf
    exact (cfgNa4_passes ..).2 ⟨hcommon, hG, hlen, halign, (naSlotConflict_confBank p bk s e rfl).trans hslot⟩
  | cfgNapot b i perm =>
    obtain ⟨hcommon, hregion, hslot⟩ := (cfgNapot_passes ..).1 hf
    exact (cfgNapot_passes ..).2 ⟨hcommon, hregion, (naSlotConflict_confBank p bk s e rfl).trans hslot⟩
  | decode b i => cases hc
  | commit b => cases hc
  | read b => cases hc
  | verify b q => cases hc

/-- Writing the bank that stands there changes no bank. -/
theorem State.setBank_bank (s : State) (b : Nat) : s.setBank b (s.bank b) = s := by
  by_cases hb : b < s.banks.length
  · simp [State.setBank, State.bank, hb]
  · exact State.setBank_of_length_le s b _ (by omega)

/-- A configure command that stages the bank that stands there, and passes its checks, changes no bank. -/
theorem configure_same_bank {c : Instr} (hc : c.isConfigure = true) {s t : State} (ht : exec c s = .next t)
    (hb : c.bank < s.params.numBanks)
    (hf : firstFailure (confChecks c s.params (s.bank c.bank) s.portStart s.portEnd) = none)
    (hbk : confBank c (s.bank c.bank) s.portStart s.portEnd = s.bank c.bank) :
    t.result = 0 ∧ t.banks = s.banks := by
  have hall : firstFailure
      (bankCheck s.params c.bank :: confChecks c s.params (s.bank c.bank) s.portStart s.portEnd) = none := by
    rw [firstFailure_bankCheck, if_neg (by omega), hf]
  rw [exec_configure c hc] at ht
  cases ht
  rw [finishWrite_result, finishWrite_banks, hall, if_pos rfl, hbk]
  exact ⟨rfl, congrArg State.banks (State.setBank_bank s c.bank)⟩

/-- A configure command that returned Ok passes its checks on the bank it staged, and stages that same bank again (R37). -/
theorem configure_again {c : Instr} (hc : c.isConfigure = true) {s t u : State} (hs : s.ShapeOk)
    (ht : exec c s = .next t) (hr : t.result = 0) (hu : exec c t = .next u) : u.result = 0 ∧ u.banks = t.banks := by
  obtain ⟨hb, hf, rfl⟩ := configure_ok hc ht hr
  have hbank := State.bank_setBank_self s c.bank (confBank c (s.bank c.bank) s.portStart s.portEnd) (hs.bank_lt hb)
  refine configure_same_bank hc hu hb ?_ ?_ <;> rw [State.bank_finish, hbank]
  · exact confChecks_pass_again (hs.bank_length hb) hc hf
  · exact confBank_confBank ..

/-! ### The obligations -/

/-- Settles O6, by the step of a command: `setInputs` and `samplePorts` are the updates the statement writes out. -/
theorem stepRunsDecodedCommand : Obligations.StepRunsDecodedCommand :=
  fun _ _ _ _ _ _ hin hd => step_of_command hin hd

/-- Settles O8, by what a step does of each of the other inputs, and of none. -/
theorem stepBetweenCommands : Obligations.StepBetweenCommands :=
  ⟨fun _ => step_of_no_input, fun _ _ _ _ => step_of_envWrite,
    fun _ _ hin => ⟨_, step_of_reset hin, rfl, rfl, rfl, rfl, rfl⟩⟩

/-- Settles O12: every bank of a launch is the empty bank. -/
theorem launchBanksAreEmpty : Obligations.LaunchBanksAreEmpty := by
  intro p c r out ins ds b i hb hi
  obtain ⟨hcfg, haddr, hmode⟩ := Bank.of_entry (Bank.entry_empty p.N i)
  rw [launch_bank p c r out ins ds b hb]
  exact ⟨hcfg, haddr, hmode.trans (by decide), decodeEntry_empty hi⟩

/-- Settles O51: only COMMIT writes the CSR file, and mseccfg is not among its writes. -/
theorem onlyCommitWritesCsrsAndNeverMseccfg : Obligations.OnlyCommitWritesCsrsAndNeverMseccfg := by
  intro c s t ht
  rcases exec_writes ht with ⟨ds, f, rfl⟩ | ⟨d, rfl⟩ | ⟨-, ds, bk, rfl⟩ | ⟨b, f, rfl, rfl⟩
  · exact ⟨rfl, fun _ => rfl⟩
  · exact ⟨rfl, fun _ => rfl⟩
  · exact ⟨rfl, fun _ => rfl⟩
  · exact ⟨commitRun_mseccfg s b, nofun⟩

/-- Settles O52: the one bank a command can write is the one it names, and only a configure command or READ writes it. -/
theorem commandsWriteOnlyTheirBank : Obligations.CommandsWriteOnlyTheirBank := by
  intro c s t ht
  rcases exec_writes ht with ⟨ds, f, rfl⟩ | ⟨d, rfl⟩ | ⟨hwrites, ds, bk, rfl⟩ | ⟨b, f, -, rfl⟩
  · exact ⟨sameOtherBanks_of_banks_eq _ rfl, fun _ _ => rfl⟩
  · exact ⟨sameOtherBanks_of_banks_eq _ rfl, fun _ _ => rfl⟩
  · refine ⟨sameOtherBanks_setBank (s.setDraws ds) c.bank bk, fun hnot hread => ?_⟩
    rcases hwrites with hconf | ⟨b, rfl⟩
    · rw [hnot] at hconf; cases hconf
    · exact absurd rfl (hread b)
  · exact ⟨sameOtherBanks_of_banks_eq _ rfl, fun _ _ => rfl⟩

/-- Settles O53: nothing a command can write is a parameter, an input port or an input to come. -/
theorem commandsKeepPortsAndInputs : Obligations.CommandsKeepPortsAndInputs := by
  intro c s t ht
  rcases exec_writes ht with ⟨ds, f, rfl⟩ | ⟨d, rfl⟩ | ⟨-, ds, bk, rfl⟩ | ⟨b, f, -, rfl⟩
  all_goals exact ⟨rfl, rfl, rfl, rfl, rfl⟩

/-- Settles O25, by the frame of the staged bank: a word that changes beside the entry's own is the base CFG_TOR writes. -/
theorem configureFrame : Obligations.ConfigureFrame := by
  refine forEachConfigure_of fun k hk s t b i perm ht => ?_
  have hc := hk.isConfigure b i perm
  have hne : ∀ j, j ≠ i → (k b i perm).entry? ≠ some j := fun j hj h =>
    hj (Option.some.inj (h.symm.trans (hk.entry b i perm)))
  have hother := configure_sameOtherBanks hc ht
  have hcfg := fun j hj => configure_cfg_ne hc ht (hne j hj)
  have haddr := fun j hj => configure_addr_ne hc ht (hne j hj)
  rw [hk.bank b i perm] at hother hcfg haddr
  refine ⟨configure_sameOutside hc ht, hother, hcfg, fun j hj hchanged => ?_⟩
  rcases haddr j hj with h | ⟨⟨b', perm', htor⟩, hoff⟩
  · exact absurd h hchanged
  · obtain ⟨rfl, rfl, rfl⟩ := hk.eq_cfgTor htor
    exact ⟨htor, rfl, hoff⟩

/-- Settles O27, by the second run of a configure command that returned Ok. -/
theorem configureIsIdempotent : Obligations.ConfigureIsIdempotent :=
  forEachConfigure_of fun _ hk _ _ _ b i perm hs ht hr hu => configure_again (hk.isConfigure b i perm) hs ht hr hu

end Sys2Proof.Machine
end

section
/-! SUPPORT. The CSR accesses of COMMIT and READ (20_memory.md R46 to R50): the lanes of a packed register, what the two
commands leave with and without a failed access, and the draws each command takes. -/

namespace Sys2Proof.Machine

/-! ### Lanes -/

/-- Lane `k` of the packed register `j` is the byte of entry `4j + k` (R50). -/
theorem Bank.unpack_pack (bk : Bank) (j k : Nat) (hk : k < 4) : unpack (bk.pack j) k = bk.cfg (4 * j + k) := by
  obtain ⟨h0, h1, h2, h3⟩ :=
    unpack_packBytes (bk.cfg (4 * j)) (bk.cfg (4 * j + 1)) (bk.cfg (4 * j + 2)) (bk.cfg (4 * j + 3))
  interval_cases k
  · exact h0
  · exact h1
  · exact h2
  · exact h3

/-- The lane of entry `i` in the packed register that holds it (R50). -/
theorem Bank.unpack_pack_div_mod (bk : Bank) (i : Nat) : unpack (bk.pack (i / 4)) (i % 4) = bk.cfg i := by
  rw [bk.unpack_pack _ _ (Nat.mod_lt i (by decide)), Nat.div_add_mod]

/-! ### Draws -/

theorem draws_succeed {s : State} {n : Nat} (h : ¬ SomeAccessFails s n) : ∀ k, k < n → s.draws.getD k false = false :=
  fun k hk => Bool.eq_false_iff.2 fun hf => h ⟨k, hk, hf⟩

/-! ### COMMIT -/

/-- COMMIT of a bank in range ends with the file and the draws its writes leave, and Error when one failed (R130, R132). -/
theorem committed_of_lt {s : State} {b : Nat} (hb : b < s.params.numBanks) :
    s.committed b = (s.setCsr (s.commitRun b).csr (s.commitRun b).draws).finish
      (if (s.commitRun b).failed then some .error else none) := by
  rcases committed_cases s b with ⟨hle, -⟩ | ⟨-, e⟩
  · exact absurd hb (Nat.not_lt.2 hle)
  · exact e

/-- COMMIT when no access fails (R130). -/
theorem committed_ok {s : State} {b : Nat} (hb : b < s.params.numBanks)
    (hok : ¬ SomeAccessFails s (bankAccesses s.params)) :
    s.committed b = (s.setCsr (csrAfter s.params s.csr (commitWrites s.params (s.bank b)))
      (s.draws.drop (bankAccesses s.params))).finish none := by
  have hrun : s.commitRun b = _ :=
    csrWrites_ok s.params (commitWrites s.params (s.bank b)) s.draws s.csr (by simpa using draws_succeed hok)
  rw [committed_of_lt hb, hrun, commitWrites_length]
  rfl

/-- COMMIT when access `n` is the first to fail (R132). -/
theorem committed_fail {s : State} {b n : Nat} (hb : b < s.params.numBanks) (hn : n < bankAccesses s.params)
    (hbefore : ∀ k, k < n → s.draws.getD k false = false) (hfail : s.draws.getD n false = true) :
    s.committed b = (s.setCsr (csrAfter s.params s.csr ((commitWrites s.params (s.bank b)).take n))
      (s.draws.drop (n + 1))).finish (some .error) := by
  have hrun : s.commitRun b = _ :=
    csrWrites_fail s.params (commitWrites s.params (s.bank b)) s.draws s.csr n (by simpa using hn) hbefore hfail
  rw [committed_of_lt hb, hrun]
  rfl

/-- With the identity `Legalize`, a register of the file holds after the writes of COMMIT the value COMMIT wrote to it. -/
theorem csrGet_csrAfter_commitWrites {p : Params} (hp : p.backend = .reference) {bk : Bank} {c : CsrFile} {r : CsrReg}
    {v : Word} (hr : CsrHas c r) (hv : (r, v) ∈ commitWrites p bk) :
    csrGet (csrAfter p c (commitWrites p bk)) r = v := by
  have hn := commitWrites_nodup p bk
  rw [csrGet_csrAfter p hp _ c r hr hn, find_write_of_mem _ r v hn hv]
  rfl

theorem pmpaddr_mem_commitWrites {p : Params} (bk : Bank) {i : Nat} (hi : i < p.N) :
    (CsrReg.pmpaddr i, bk.addr i) ∈ commitWrites p bk :=
  List.mem_append_left _ (List.mem_map.2 ⟨i, List.mem_range.2 hi, rfl⟩)

theorem pmpcfg_mem_commitWrites {p : Params} (bk : Bank) {j : Nat} (hj : j < p.N / 4) :
    (CsrReg.pmpcfg j, bk.pack j) ∈ commitWrites p bk :=
  List.mem_append_right _ (List.mem_map.2 ⟨j, List.mem_range.2 hj, rfl⟩)

/-- With the identity `Legalize`, the file holds the bank bit for bit after the writes of COMMIT (R134). -/
theorem csrHolds_csrAfter_commitWrites {p : Params} (hp : p.backend = .reference) (bk : Bank) {c : CsrFile}
    (h4 : p.N % 4 = 0) (hcfg : c.pmpcfg.length = p.N / 4) (haddr : c.pmpaddr.length = p.N) :
    CsrHolds p (csrAfter p c (commitWrites p bk)) bk := by
  intro i hi
  have hj : i / 4 < p.N / 4 := by omega
  have hasAddr : CsrHas c (.pmpaddr i) := hi.trans_eq haddr.symm
  have hasCfg : CsrHas c (.pmpcfg (i / 4)) := hj.trans_eq hcfg.symm
  rw [csrGet_csrAfter_commitWrites hp hasAddr (pmpaddr_mem_commitWrites bk hi),
    csrGet_csrAfter_commitWrites hp hasCfg (pmpcfg_mem_commitWrites bk hj)]
  exact ⟨rfl, bk.unpack_pack_div_mod i⟩

/-! ### READ -/

/-- READ when no access fails: the bank of the words that the registers show (R135). -/
theorem readInto_ok {s : State} {b : Nat} (hb : b < s.params.numBanks)
    (hok : ¬ SomeAccessFails s (bankAccesses s.params)) :
    s.readInto b = ((s.setDraws (s.draws.drop (bankAccesses s.params))).setBank b
      (bankOfWords s.params.N ((bankRegs s.params).map (view s.params · s.csr)))).finish none := by
  have hrun : s.readRun = _ :=
    csrReads_ok s.params (bankRegs s.params) s.draws s.csr (by simpa using draws_succeed hok)
  rw [bankRegs_length] at hrun
  rcases readInto_cases s b with ⟨hle, -⟩ | ⟨-, ⟨ws, hws, e⟩ | ⟨hnone, -⟩⟩
  · exact absurd hb (Nat.not_lt.2 hle)
  · rw [hrun] at hws e
    cases hws
    exact e
  · rw [hrun] at hnone
    cases hnone

/-- READ when access `n` is the first to fail (R135, R136). -/
theorem readInto_fail {s : State} {b n : Nat} (hb : b < s.params.numBanks) (hn : n < bankAccesses s.params)
    (hbefore : ∀ k, k < n → s.draws.getD k false = false) (hfail : s.draws.getD n false = true) :
    s.readInto b = (s.setDraws (s.draws.drop (n + 1))).finish (some .error) := by
  have hrun : s.readRun = _ :=
    csrReads_fail_first s.params (bankRegs s.params) s.draws s.csr n (by simpa using hn) hbefore hfail
  rcases readInto_cases s b with ⟨hle, -⟩ | ⟨-, ⟨ws, hws, -⟩ | ⟨-, e⟩⟩
  · exact absurd hb (Nat.not_lt.2 hle)
  · rw [hrun] at hws
    cases hws
  · rwa [hrun] at e

/-- The bank of the words that the registers show is what the file shows (R135). -/
theorem csrShows_bankOfWords {p : Params} (h4 : p.N % 4 = 0) (c : CsrFile) :
    CsrShows p c (bankOfWords p.N ((bankRegs p).map (view p · c))) := by
  intro i hi
  have hentry := (bankOfWords_entry p.N ((bankRegs p).map (view p · c)) i hi).trans
    (by simpa using entryOfWords_views p (view p · c) [] i hi h4)
  obtain ⟨hcfg, haddr, -⟩ := Bank.of_entry hentry
  exact ⟨haddr.symm, hcfg.symm⟩

/-! ### The draws of the other commands -/

/-- VERIFY makes every read, whatever fails (R137, R138). -/
theorem verified_draws {s : State} {b : Nat} (q : Posture) (hb : b < s.params.numBanks) :
    (s.verified b q).draws = s.draws.drop (bankAccesses s.params + 1) := by
  rcases verified_cases s b q with ⟨hle, -⟩ | ⟨-, e⟩
  · exact absurd hb (Nat.not_lt.2 hle)
  · rw [e, verifyRegs_length]
    rfl

/-- DECODE accesses no CSR (R127). -/
theorem decoded_draws (s : State) (b i : Nat) : (s.decoded b i).draws = s.draws := by
  rcases decoded_cases s b i with ⟨-, e⟩ | ⟨-, ⟨d, -, e⟩ | ⟨f, -, e⟩⟩
  all_goals rw [e]; rfl

/-- The configure commands access no CSR (R43). -/
theorem configure_draws {c : Instr} (hc : c.isConfigure = true) {s t : State} (ht : exec c s = .next t) :
    t.draws = s.draws := by
  obtain ⟨-, -, hdraws, -⟩ := configure_sameOutside hc ht
  exact hdraws

/-! ### The obligations -/

/-- Settles O44: the lanes of a packed register; the second clause is the definition of `unpack`. -/
theorem packedLanes : Obligations.PackedLanes :=
  ⟨fun bk i => bk.unpack_pack_div_mod i, fun _ _ _ => rfl⟩

/-- Settles O42: the state COMMIT leaves when no access fails; no register is written twice, so with the identity `Legalize`
each holds the value written to it. -/
theorem commitWritesEveryRegister : Obligations.CommitWritesEveryRegister := by
  intro s b hs hb hok
  obtain ⟨⟨-, -, h4, -⟩, -, -, hcfg, haddr⟩ := hs
  have ht := (exec_commit b s).trans (congrArg Host.Outcome.next (committed_ok hb hok))
  refine ⟨_, ht, rfl, rfl, rfl, (onlyCommitWritesCsrsAndNeverMseccfg _ _ _ ht).1, fun hp => ?_, rfl, rfl, rfl, rfl, rfl⟩
  exact csrHolds_csrAfter_commitWrites hp (s.bank b) h4 hcfg haddr

/-- Settles O45: the state READ leaves when no access fails has the bank of the words that the registers show. -/
theorem readLoadsTheWholeBank : Obligations.ReadLoadsTheWholeBank := by
  intro s b hs hb hok
  have hlt := hs.bank_lt hb
  obtain ⟨⟨-, -, h4, -⟩, -⟩ := hs
  have hbank := State.bank_setBank_self (s.setDraws (s.draws.drop (bankAccesses s.params))) b
    (bankOfWords s.params.N ((bankRegs s.params).map (view s.params · s.csr))) hlt
  refine ⟨_, (exec_read b s).trans (congrArg _ (readInto_ok hb hok)), rfl, ?_, ?_, sameOtherBanks_setBank ..,
    rfl, rfl, rfl, rfl, rfl, rfl⟩
  · rw [State.bank_finish, hbank]
    exact csrShows_bankOfWords h4 s.csr
  · rw [State.bank_finish, hbank, bankOfWords_length]

/-- Settles O50: the draws are those of the states COMMIT and READ leave, with and without a failed access, and of VERIFY;
the other commands access no CSR. -/
theorem accessesTakeDrawsInOrder : Obligations.AccessesTakeDrawsInOrder := by
  intro s b hb
  refine ⟨?_, ?_, ?_, ?_⟩
  · rintro t (ht | ht) hok
    · rw [exec_commit, committed_ok hb hok] at ht
      cases ht
      rfl
    · rw [exec_read, readInto_ok hb hok] at ht
      cases ht
      rfl
  · rintro t n (ht | ht) hn hbefore hfail
    · rw [exec_commit, committed_fail hb hn hbefore hfail] at ht
      cases ht
      rfl
    · rw [exec_read, readInto_fail hb hn hbefore hfail] at ht
      cases ht
      rfl
  · intro t q ht
    rw [exec_verify] at ht
    cases ht
    exact verified_draws q hb
  · rintro t c (hc | ⟨d, i, rfl⟩) ht
    · exact configure_draws hc ht
    · rw [exec_decode] at ht
      cases ht
      exact decoded_draws s d i

end Sys2Proof.Machine
end

section
/-! SUPPORT. Command words (30_encoding.md R59, R60, R71 to R73, R79): which words decode to which command, and the bits a
command reads of its word. -/

namespace Sys2Proof

/-! ### The fields of a word -/

theorem opField_eq_mod (w : Word) : opField w = w.toNat % 16 := by
  simp [opField, BitVec.extractLsb'_toNat]

theorem bankField_lt (w : Word) : bankField w < 16 := (w.extractLsb' 20 4).isLt

theorem entryField_lt (w : Word) : entryField w < 256 := (w.extractLsb' 4 8).isLt

theorem getLsbD_of_reservedBit_eq_zero {w : Word} (h : reservedBit w = 0) : w.getLsbD 19 = false := by
  simpa [reservedBit] using congrArg (·.getLsbD 0) h

/-- Words that agree under a mask agree in every field the mask covers. -/
theorem extractLsb'_eq_of_and_eq {w w' m : Word} (a n : Nat) (h : w' &&& m = w &&& m)
    (hm : m.extractLsb' a n = BitVec.allOnes n) : w'.extractLsb' a n = w.extractLsb' a n := by
  have hfield := congrArg (BitVec.extractLsb' a n) h
  rwa [BitVec.extractLsb'_and, BitVec.extractLsb'_and, hm, BitVec.and_allOnes, BitVec.and_allOnes] at hfield

/-! ### The OP table -/

/-- The OP of a command's row in the table (R71). -/
def Instr.op : Instr → Nat
  | .cfgOff _ _ _ => 0
  | .cfgTor _ _ _ => 1
  | .cfgNa4 _ _ _ => 2
  | .cfgNapot _ _ _ => 3
  | .decode _ _ => 4
  | .commit _ => 5
  | .read _ => 6
  | .verify _ _ => 7

/-- The word's ENTRY, PERM and POSTURE are those the command holds, where it has such a field (R60). -/
def HasOperands (w : Word) : Instr → Prop
  | .cfgOff _ i p => entryField w = i ∧ permField w = p
  | .cfgTor _ i p => entryField w = i ∧ permField w = p
  | .cfgNa4 _ i p => entryField w = i ∧ permField w = p
  | .cfgNapot _ i p => entryField w = i ∧ permField w = p
  | .decode _ i => entryField w = i
  | .commit _ => True
  | .read _ => True
  | .verify _ q => postureField w = q

theorem fields_of_decodeOp {w : Word} {c : Instr} (h : decodeOp w = .ok c) :
    opField w = c.op ∧ bankField w = c.bank ∧ HasOperands w c := by
  unfold decodeOp at h
  split at h
  · next hop => cases h; exact ⟨hop, rfl, rfl, rfl⟩
  · next hop => cases h; exact ⟨hop, rfl, rfl, rfl⟩
  · next hop => cases h; exact ⟨hop, rfl, rfl, rfl⟩
  · next hop => cases h; exact ⟨hop, rfl, rfl, rfl⟩
  · next hop => cases h; exact ⟨hop, rfl, rfl⟩
  · next hop => cases h; exact ⟨hop, rfl, trivial⟩
  · next hop => cases h; exact ⟨hop, rfl, trivial⟩
  · next hop => cases h; exact ⟨hop, rfl, rfl⟩
  · cases h

theorem decodeOp_of_fields {w : Word} {c : Instr} (hop : opField w = c.op) (hbank : bankField w = c.bank)
    (h : HasOperands w c) : decodeOp w = .ok c := by
  unfold decodeOp
  rw [hop, hbank]
  cases c with
  | cfgOff b i p => obtain ⟨rfl, rfl⟩ := h; rfl
  | cfgTor b i p => obtain ⟨rfl, rfl⟩ := h; rfl
  | cfgNa4 b i p => obtain ⟨rfl, rfl⟩ := h; rfl
  | cfgNapot b i p => obtain ⟨rfl, rfl⟩ := h; rfl
  | decode b i => obtain rfl := h; rfl
  | commit b => rfl
  | read b => rfl
  | verify b q => obtain rfl := h; rfl

/-- All that decides what a word decodes to: its reserved bits, its OP and the fields of that OP (R72, R79). -/
theorem decode_ok_iff {w : Word} {c : Instr} :
    decode w = .ok c ↔
      reservedHigh w = 0 ∧ reservedBit w = 0 ∧ opField w = c.op ∧ bankField w = c.bank ∧ HasOperands w c := by
  constructor
  · intro h
    obtain ⟨hhigh, hbit, -, hrow⟩ := decode_ok h
    exact ⟨hhigh, hbit, fields_of_decodeOp hrow⟩
  · rintro ⟨hhigh, hbit, hop, hbank, h⟩
    exact (decode_eq_decodeOp hhigh hbit).trans (decodeOp_of_fields hop hbank h)

/-- The table has a row for each OP below 8 (R71). -/
theorem exists_decodeOp_of_lt {w : Word} (h : opField w < 8) : ∃ c, decodeOp w = .ok c := by
  unfold decodeOp
  interval_cases opField w
  all_goals exact ⟨_, rfl⟩

/-! ### The word of a command -/

/-- A BANK that fits its field is not cut (R60, R75). -/
theorem bankField_of_fits {b : Nat} (h : bankFits b = true) {q : Posture} {p : Nibble} {i : Nat} {op : BitVec 4} :
    bankField (commandWord b q p i op) = b :=
  (bankField_commandWord ..).trans (Nat.mod_eq_of_lt (of_decide_eq_true h))

/-- An ENTRY that fits its field is not cut (R60, R74). -/
theorem entryField_of_fits {i : Nat} (h : entryFits i = true) {b : Nat} {q : Posture} {p : Nibble} {op : BitVec 4} :
    entryField (commandWord b q p i op) = i :=
  (entryField_commandWord ..).trans (Nat.mod_eq_of_lt (of_decide_eq_true h))

/-- The fields of the word of a well-formed command are the command's own (R60, R71). -/
theorem fields_encode {c : Instr} (h : c.wellFormed = true) :
    opField (encode c) = c.op ∧ bankField (encode c) = c.bank ∧ HasOperands (encode c) c := by
  cases c with
  | cfgOff b i p =>
    obtain ⟨hb, hi⟩ := Bool.and_eq_true_iff.1 h
    exact ⟨opField_commandWord .., bankField_of_fits hb, entryField_of_fits hi, permField_commandWord ..⟩
  | cfgTor b i p =>
    obtain ⟨hb, hi⟩ := Bool.and_eq_true_iff.1 h
    exact ⟨opField_commandWord .., bankField_of_fits hb, entryField_of_fits hi, permField_commandWord ..⟩
  | cfgNa4 b i p =>
    obtain ⟨hb, hi⟩ := Bool.and_eq_true_iff.1 h
    exact ⟨opField_commandWord .., bankField_of_fits hb, entryField_of_fits hi, permField_commandWord ..⟩
  | cfgNapot b i p =>
    obtain ⟨hb, hi⟩ := Bool.and_eq_true_iff.1 h
    exact ⟨opField_commandWord .., bankField_of_fits hb, entryField_of_fits hi, permField_commandWord ..⟩
  | decode b i =>
    obtain ⟨hb, hi⟩ := Bool.and_eq_true_iff.1 h
    exact ⟨opField_commandWord .., bankField_of_fits hb, entryField_of_fits hi⟩
  | commit b => exact ⟨opField_commandWord .., bankField_of_fits h, trivial⟩
  | read b => exact ⟨opField_commandWord .., bankField_of_fits h, trivial⟩
  | verify b q => exact ⟨opField_commandWord .., bankField_of_fits h, postureField_commandWord ..⟩

/-- The reserved bits of the word of a command are 0 (R60, R72). -/
theorem reserved_encode (c : Instr) : reservedHigh (encode c) = 0 ∧ reservedBit (encode c) = 0 := by
  cases c <;> exact ⟨reservedHigh_commandWord .., reservedBit_commandWord ..⟩

theorem decode_encode {c : Instr} (h : c.wellFormed = true) : decode (encode c) = .ok c := by
  obtain ⟨hhigh, hbit⟩ := reserved_encode c
  exact decode_ok_iff.2 ⟨hhigh, hbit, fields_encode h⟩

/-! ### The bits a command uses -/

theorem wellFormed_of_decode {w : Word} {c : Instr} (h : decode w = .ok c) : c.wellFormed = true := by
  obtain ⟨-, -, -, hbank, hops⟩ := decode_ok_iff.1 h
  have hb : bankFits c.bank = true := decide_eq_true (hbank ▸ bankField_lt w)
  have hi : entryFits (entryField w) = true := decide_eq_true (entryField_lt w)
  cases c with
  | cfgOff b i p => obtain ⟨rfl, -⟩ := hops; exact Bool.and_eq_true_iff.2 ⟨hb, hi⟩
  | cfgTor b i p => obtain ⟨rfl, -⟩ := hops; exact Bool.and_eq_true_iff.2 ⟨hb, hi⟩
  | cfgNa4 b i p => obtain ⟨rfl, -⟩ := hops; exact Bool.and_eq_true_iff.2 ⟨hb, hi⟩
  | cfgNapot b i p => obtain ⟨rfl, -⟩ := hops; exact Bool.and_eq_true_iff.2 ⟨hb, hi⟩
  | decode b i => obtain rfl := hops; exact Bool.and_eq_true_iff.2 ⟨hb, hi⟩
  | commit b => exact hb
  | read b => exact hb
  | verify b q => exact hb

/-- Under the mask of its used bits a word that decodes is the word of its command (R73). -/
theorem and_usedMask_of_decode {w : Word} {c : Instr} (h : decode w = .ok c) : w &&& usedMask c = encode c := by
  obtain ⟨hhigh, hbit, hop, hbank, hops⟩ := decode_ok_iff.1 h
  have hop' : w.extractLsb' 0 4 = BitVec.ofNat 4 c.op := by
    rw [← hop, opField, BitVec.ofNat_toNat, BitVec.setWidth_eq]
  have hw := commandWord_of_fields hhigh hbit
  rw [hbank, hop'] at hw
  rw [← hw]
  cases c with
  | cfgOff b i p => obtain ⟨rfl, rfl⟩ := hops; exact commandWord_and_cfg ..
  | cfgTor b i p => obtain ⟨rfl, rfl⟩ := hops; exact commandWord_and_cfg ..
  | cfgNa4 b i p => obtain ⟨rfl, rfl⟩ := hops; exact commandWord_and_cfg ..
  | cfgNapot b i p => obtain ⟨rfl, rfl⟩ := hops; exact commandWord_and_cfg ..
  | decode b i => obtain rfl := hops; exact commandWord_and_decode ..
  | commit b => exact commandWord_and_bank ..
  | read b => exact commandWord_and_bank ..
  | verify b q => obtain rfl := hops; exact commandWord_and_verify ..

/-- The mask of the used bits covers the reserved bits, OP and BANK for every command (R60, R73). -/
theorem usedMask_covers (c : Instr) :
    (usedMask c).extractLsb' 24 8 = BitVec.allOnes 8 ∧ (usedMask c).extractLsb' 19 1 = BitVec.allOnes 1 ∧
    (usedMask c).extractLsb' 0 4 = BitVec.allOnes 4 ∧ (usedMask c).extractLsb' 20 4 = BitVec.allOnes 4 := by
  cases c <;> simp only [usedMask] <;> decide

/-- The used bits of a configure command hold its ENTRY and PERM (R60). -/
theorem entry_perm_eq_of_and_eq {w w' : Word} (h : w' &&& 0xFFF8FFFF = w &&& 0xFFF8FFFF) :
    entryField w' = entryField w ∧ permField w' = permField w :=
  ⟨congrArg BitVec.toNat (extractLsb'_eq_of_and_eq 4 8 h (by decide)), extractLsb'_eq_of_and_eq 12 4 h (by decide)⟩

/-- Words that agree on the bits a command uses agree on its operands. -/
theorem HasOperands.congr {w w' : Word} {c : Instr} (h : HasOperands w c) (hw : w' &&& usedMask c = w &&& usedMask c) :
    HasOperands w' c := by
  cases c with
  | cfgOff b i p => obtain ⟨rfl, rfl⟩ := h; exact entry_perm_eq_of_and_eq hw
  | cfgTor b i p => obtain ⟨rfl, rfl⟩ := h; exact entry_perm_eq_of_and_eq hw
  | cfgNa4 b i p => obtain ⟨rfl, rfl⟩ := h; exact entry_perm_eq_of_and_eq hw
  | cfgNapot b i p => obtain ⟨rfl, rfl⟩ := h; exact entry_perm_eq_of_and_eq hw
  | decode b i => obtain rfl := h; exact congrArg BitVec.toNat (extractLsb'_eq_of_and_eq (m := 0xFFF80FFF) 4 8 hw (by decide))
  | commit b => trivial
  | read b => trivial
  | verify b q => obtain rfl := h; exact extractLsb'_eq_of_and_eq (m := 0xFFFF000F) 16 3 hw (by decide)

/-- Words that agree on the bits a command uses decode to it together (R73). -/
theorem decode_congr_usedMask {w w' : Word} {c : Instr} (h : decode w = .ok c)
    (hw : w' &&& usedMask c = w &&& usedMask c) : decode w' = .ok c := by
  obtain ⟨hhigh, hbit, hop, hbank, hops⟩ := decode_ok_iff.1 h
  obtain ⟨mhigh, mbit, mop, mbank⟩ := usedMask_covers c
  exact decode_ok_iff.2
    ⟨(extractLsb'_eq_of_and_eq 24 8 hw mhigh).trans hhigh, (extractLsb'_eq_of_and_eq 19 1 hw mbit).trans hbit,
      (congrArg BitVec.toNat (extractLsb'_eq_of_and_eq 0 4 hw mop)).trans hop,
      (congrArg BitVec.toNat (extractLsb'_eq_of_and_eq 20 4 hw mbank)).trans hbank, hops.congr hw⟩

theorem entryField_of_decode {w : Word} {c : Instr} {e : Nat} (h : decode w = .ok c) (he : c.entry? = some e) :
    e = entryField w := by
  obtain ⟨-, -, -, -, hops⟩ := decode_ok_iff.1 h
  cases c with
  | cfgOff b i p => cases he; exact hops.1.symm
  | cfgTor b i p => cases he; exact hops.1.symm
  | cfgNa4 b i p => cases he; exact hops.1.symm
  | cfgNapot b i p => cases he; exact hops.1.symm
  | decode b i => cases he; exact hops.symm
  | commit b => cases he
  | read b => cases he
  | verify b q => cases he

/-- A word decodes exactly when its reserved bits are 0 and its OP is below 8 (R72, R79). -/
theorem exists_decode_iff {w : Word} :
    (∃ c, decode w = .ok c) ↔ reservedHigh w = 0 ∧ reservedBit w = 0 ∧ opField w < 8 := by
  constructor
  · rintro ⟨c, h⟩
    obtain ⟨hhigh, hbit, hop, -⟩ := decode_ok h
    exact ⟨hhigh, hbit, hop⟩
  · rintro ⟨hhigh, hbit, hop⟩
    rw [decode_eq_decodeOp hhigh hbit]
    exact exists_decodeOp_of_lt hop

/-! ### The obligations -/

/-- Settles O2: the reserved bits of the word are 0, and its fields are the command's own. -/
theorem decodeOfEncode : Obligations.DecodeOfEncode :=
  fun _ => decode_encode

/-- Settles O3: a word with its reserved bits 0 is built from its fields, and the mask clears those its OP does not use. -/
theorem decodedWordIsEncodingUpToIgnoredBits : Obligations.DecodedWordIsEncodingUpToIgnoredBits :=
  fun _ _ h => ⟨wellFormed_of_decode h, and_usedMask_of_decode h⟩

/-- Settles O5: the table's mask keeps the reserved bits and OP, so its value is below 8 exactly on the words that decode. -/
theorem commandsAreTheTableWords : Obligations.CommandsAreTheTableWords := by
  intro w
  rw [exists_decode_iff, tableMask_toNat, ← BitVec.toNat_inj, ← BitVec.toNat_inj]
  simp only [BitVec.ofNat_eq_ofNat, BitVec.toNat_ofNat, Nat.zero_mod]
  omega

/-- Settles O1: each word is the encoding of the command beside it. -/
theorem specWordsDecode : Obligations.SpecWordsDecode :=
  ⟨decode_encode (c := .cfgOff 0 0 0x7) rfl, decode_encode (c := .cfgTor 0 1 0x3) rfl,
    decode_encode (c := .cfgNa4 0 0 0x1) rfl, decode_encode (c := .cfgNapot 0 0 0xF) rfl,
    decode_encode (c := .decode 1 1) rfl, decode_encode (c := .commit 2) rfl, decode_encode (c := .read 1) rfl,
    decode_encode (c := .verify 0 0x6) rfl⟩

end Sys2Proof
end

section
/-! SUPPORT. What a command does of its word's fields and of the ports (30_encoding.md R69 to R75): reserved words, index
fields out of range, the ports that a command does not read, and the bytes and NAPOT words of entries. -/

namespace Sys2Proof.Machine

/-! ### Reserved words -/

/-- A word that is no command is rejected (R72, R79). -/
theorem step_of_rejected {s : State} {cmd start stop : Word} {rest : List Input}
    (h : s.inputs = .command cmd start stop :: rest) (hd : ∀ c, decode cmd ≠ .ok c) :
    step s = .next ((s.setInputs rest).samplePorts cmd start stop).rejectWord := by
  unfold step
  rw [h]
  cases hc : decode cmd with
  | ok c => exact absurd hc (hd c)
  | error e => simp only [runCommand, State.samplePorts_portCmd, hc]

/-- A word with OP 8 or more, or with a reserved bit 1, does not decode (R72). -/
theorem decode_ne_ok_of_reserved {w : Word}
    (h : 8 ≤ w.toNat % 16 ∨ w.getLsbD 19 = true ∨ w.extractLsb' 24 8 ≠ 0) (c : Instr) : decode w ≠ .ok c := by
  intro hc
  obtain ⟨hhigh, hbit, hop⟩ := exists_decode_iff.1 ⟨c, hc⟩
  rcases h with h | h | h
  · rw [opField_eq_mod] at hop
    omega
  · rw [getLsbD_of_reservedBit_eq_zero hbit] at h
    cases h
  · exact h hhigh

/-! ### Indexes out of range -/

theorem finishWrite_of_failure {s : State} {b : Nat} {cs : List Check} {f : Failure} (h : firstFailure cs = some f)
    (bk : Bank) : s.finishWrite b cs bk = s.finish (some f) := by
  unfold State.finishWrite
  rw [h]

/-- Whatever the command, a BANK out of range ends it with BadArg (R75). -/
theorem exec_of_bank_out_of_range {c : Instr} {s : State} (h : s.params.numBanks ≤ c.bank) :
    exec c s = .next (s.finish (some .badArg)) := by
  by_cases hc : c.isConfigure = true
  · rw [exec_configure c hc, finishWrite_of_failure]
    rw [firstFailure_bankCheck, if_pos h]
  have hlt : ¬ c.bank < s.params.numBanks := Nat.not_lt.2 h
  cases c with
  | cfgOff b i perm => exact absurd rfl hc
  | cfgTor b i perm => exact absurd rfl hc
  | cfgNa4 b i perm => exact absurd rfl hc
  | cfgNapot b i perm => exact absurd rfl hc
  | decode b i => exact (decoded_cases s b i).elim (fun h => congrArg _ h.2) fun h => absurd h.1 hlt
  | commit b => exact (committed_cases s b).elim (fun h => congrArg _ h.2) fun h => absurd h.1 hlt
  | read b => exact (readInto_cases s b).elim (fun h => congrArg _ h.2) fun h => absurd h.1 hlt
  | verify b q => exact (verified_cases s b q).elim (fun h => congrArg _ h.2) fun h => absurd h.1 hlt

/-- The checks of a configure command find an ENTRY out of range before anything else (R74, R84). -/
theorem confChecks_entry_out_of_range {c : Instr} (hc : c.isConfigure = true) {p : Params} {e : Nat}
    (he : c.entry? = some e) (h : p.N ≤ e) (bk : Bank) (start stop : Word) :
    firstFailure (confChecks c p bk start stop) = some .badArg := by
  have hcommon : ∀ perm cs, firstFailure (cfgCommon p e perm start stop ++ cs) = some .badArg := fun perm cs =>
    (firstFailure_cfgCommon p e perm start stop cs).elim And.right fun hgood => absurd (.inl h) hgood.1
  cases c with
  | cfgOff b i perm => cases he; exact hcommon ..
  | cfgTor b i perm => cases he; exact hcommon ..
  | cfgNa4 b i perm => cases he; exact hcommon ..
  | cfgNapot b i perm => cases he; exact hcommon ..
  | decode b i => cases hc
  | commit b => cases hc
  | read b => cases hc
  | verify b q => cases hc

/-- An ENTRY out of range ends every command that uses it with BadArg (R74). -/
theorem exec_of_entry_out_of_range {c : Instr} {s : State} {e : Nat} (he : c.entry? = some e) (h : s.params.N ≤ e) :
    exec c s = .next (s.finish (some .badArg)) := by
  by_cases hb : s.params.numBanks ≤ c.bank
  · exact exec_of_bank_out_of_range hb
  by_cases hc : c.isConfigure = true
  · rw [exec_configure c hc, finishWrite_of_failure]
    rw [firstFailure_bankCheck, if_neg hb, confChecks_entry_out_of_range hc he h]
  cases c with
  | cfgOff b i perm => exact absurd rfl hc
  | cfgTor b i perm => exact absurd rfl hc
  | cfgNa4 b i perm => exact absurd rfl hc
  | cfgNapot b i perm => exact absurd rfl hc
  | decode b i =>
    cases he
    have hd : decodeEntry s.params (s.bank b) e = .error .badArg := by rw [decodeEntry, if_pos h]
    rcases decoded_cases s b e with ⟨-, ht⟩ | ⟨-, ⟨d, hd', -⟩ | ⟨f, hd', ht⟩⟩
    · exact congrArg _ ht
    · rw [hd] at hd'; cases hd'
    · rw [hd] at hd'; cases hd'; exact congrArg _ ht
  | commit b => cases he
  | read b => cases he
  | verify b q => cases he

/-! ### The region ports -/

/-- The START and END ports hold other values. -/
def State.setRegion (s : State) (x y : Word) : State := { s with portStart := x, portEnd := y }

@[simp] theorem State.setRegion_params (s : State) (x y : Word) : (s.setRegion x y).params = s.params := rfl

@[simp] theorem State.bank_setRegion (s : State) (x y : Word) (b : Nat) : (s.setRegion x y).bank b = s.bank b := rfl

@[simp] theorem State.readRun_setRegion (s : State) (x y : Word) : (s.setRegion x y).readRun = s.readRun := rfl

/-- DECODE reads no START and no END (R73). -/
theorem decoded_setRegion (s : State) (b i : Nat) (x y : Word) :
    (s.setRegion x y).decoded b i = (s.decoded b i).setRegion x y := by
  simp only [State.decoded, State.setRegion_params, State.bank_setRegion]
  cases firstFailure [bankCheck s.params b] with
  | some f => rfl
  | none => cases decodeEntry s.params (s.bank b) i <;> rfl

/-- COMMIT reads no START and no END (R73). -/
theorem committed_setRegion (s : State) (b : Nat) (x y : Word) :
    (s.setRegion x y).committed b = (s.committed b).setRegion x y := by
  simp only [State.committed, State.setRegion_params]
  cases firstFailure [bankCheck s.params b] <;> rfl

/-- READ reads no START and no END (R73). -/
theorem readInto_setRegion (s : State) (b : Nat) (x y : Word) :
    (s.setRegion x y).readInto b = (s.readInto b).setRegion x y := by
  simp only [State.readInto, State.setRegion_params, State.readRun_setRegion]
  cases firstFailure [bankCheck s.params b] with
  | some f => rfl
  | none => rcases s.readRun with ⟨_ | ws, ds⟩ <;> rfl

/-- VERIFY reads no START and no END (R73). -/
theorem verified_setRegion (s : State) (b : Nat) (q : Posture) (x y : Word) :
    (s.setRegion x y).verified b q = (s.verified b q).setRegion x y := by
  simp only [State.verified, State.setRegion_params]
  cases firstFailure [bankCheck s.params b] <;> rfl

/-- A command other than a configure command does the same whatever START and END are (R73). -/
theorem exec_setRegion {c : Instr} (hc : c.isConfigure = false) {s t : State} (ht : exec c s = .next t) (x y : Word) :
    exec c (s.setRegion x y) = .next (t.setRegion x y) := by
  cases c with
  | cfgOff b i perm => cases hc
  | cfgTor b i perm => cases hc
  | cfgNa4 b i perm => cases hc
  | cfgNapot b i perm => cases hc
  | decode b i => cases ht; exact congrArg _ (decoded_setRegion ..)
  | commit b => cases ht; exact congrArg _ (committed_setRegion ..)
  | read b => cases ht; exact congrArg _ (readInto_setRegion ..)
  | verify b q => cases ht; exact congrArg _ (verified_setRegion ..)

/-! ### Configuration bytes -/

/-- The mode of a byte made from a permission stands in its bits 4:3, and its bits 6:5 are zero (R65). -/
theorem extractLsb'_cfgByte (p : Nibble) (m : Mode) :
    (cfgByte p m).extractLsb' 3 2 = m.bits ∧ (cfgByte p m).extractLsb' 5 2 = 0 := by
  revert p
  cases m <;> decide

/-- A byte made from a permission has the permission's bits (R65, R66). -/
theorem permBitsOf_cfgByte (p : Nibble) (m : Mode) : PermBitsOf p (cfgByte p m) := by
  have h := permBitsOf_permOf (cfgByte p m)
  rwa [permOf_cfgByte] at h

/-! ### NAPOT entries -/

/-- A configure command with its BANK in range that passes its checks writes the bank it stages (R20, R86). -/
theorem exec_configure_of_passes {c : Instr} (hc : c.isConfigure = true) {s : State} (hb : c.bank < s.params.numBanks)
    (hf : firstFailure (confChecks c s.params (s.bank c.bank) s.portStart s.portEnd) = none) :
    exec c s = .next ((s.setBank c.bank (confBank c (s.bank c.bank) s.portStart s.portEnd)).finish none) := by
  have hall : firstFailure
      (bankCheck s.params c.bank :: confChecks c s.params (s.bank c.bank) s.portStart s.portEnd) = none := by
    rw [firstFailure_bankCheck, if_neg (Nat.not_le.2 hb), hf]
  rw [exec_configure c hc, State.finishWrite, hall]

/-- A region of `2^(k+3)` aligned bytes, not below the grain, is one a NAPOT entry can hold (R101, R102). -/
theorem napotRegion_of_pow {p : Params} {s e : Word} {k : Nat} (hlen : e.toNat = s.toNat + 2 ^ (k + 3))
    (hal : s.toNat % 2 ^ (k + 3) = 0) (hg : 0 < p.G → 2 + p.G ≤ k + 3) : NapotRegion p s e :=
  ⟨k + 3, Nat.le_add_left 3 k, by rw [hlen, Nat.add_sub_cancel_left], hal, hg⟩

/-- The ones of a NAPOT word whose region ends below `2^32` (R125, R126). -/
theorem le_of_napot_end_lt {k m : Nat} (h : (m + 1) * 2 ^ (k + 3) < 2 ^ 32) : k ≤ 28 := by
  have hpow : 2 ^ (k + 3) < 2 ^ 32 := lt_of_le_of_lt (Nat.le_mul_of_pos_left _ m.succ_pos) h
  have := (Nat.pow_lt_pow_iff_right (by decide : 1 < 2)).1 hpow
  omega

/-- DECODE of a NAPOT entry with a valid byte and a region that ends below `2^32` (R70, R120, R125). -/
theorem decodeEntry_napot {p : Params} {bk : Bank} {i k m : Nat} (hi : i < p.N) (hv : cfgValid (bk.cfg i) = true)
    (hm : bk.mode i = .napot) (ha : (bk.addr i).toNat = m * 2 ^ (k + 1) + (2 ^ k - 1))
    (hend : (m + 1) * 2 ^ (k + 3) < 2 ^ 32) :
    decodeEntry p bk i = .ok
      { start := BitVec.ofNat 32 (m * 2 ^ (k + 3)), stop := BitVec.ofNat 32 ((m + 1) * 2 ^ (k + 3)),
        perm := permOf (bk.cfg i) } := by
  have hbounds := entryBounds_napot hm (le_of_napot_end_lt hend) ha
  rw [← Nat.succ_mul] at hbounds
  have hstart : m * 2 ^ (k + 3) < 2 ^ 32 := lt_of_le_of_lt (Nat.mul_le_mul_right _ m.le_succ) hend
  exact (decodeEntry_ok_iff ..).2 ⟨hi, hv, _, _, hbounds, hstart, hend, rfl⟩

theorem decoded_of_ok {s : State} {b i : Nat} {d : Decoded} (hb : b < s.params.numBanks)
    (hd : decodeEntry s.params (s.bank b) i = .ok d) : s.decoded b i = s.finishDecode d := by
  rcases decoded_cases s b i with ⟨hle, -⟩ | ⟨-, ⟨d', hd', e⟩ | ⟨f, hd', -⟩⟩
  · exact absurd hb (Nat.not_lt.2 hle)
  · rw [hd] at hd'; cases hd'; exact e
  · rw [hd] at hd'; cases hd'

/-! ### The obligations -/

/-- Settles O4: the bits a command uses decide what its word decodes to, and the four commands other than the configure
commands read neither region port. -/
theorem ignoredFieldsDoNotMatter : Obligations.IgnoredFieldsDoNotMatter :=
  ⟨fun _ _ _ => decode_congr_usedMask, fun _ _ _ x y hc ht => exec_setRegion hc ht x y⟩

/-- Settles O7: a word that decodes has its reserved bits 0 and its OP below 8; any other word is rejected. -/
theorem reservedWordEndsInError : Obligations.ReservedWordEndsInError :=
  fun _ _ _ _ _ hin h =>
    have hd := decode_ne_ok_of_reserved h
    ⟨hd, _, step_of_rejected hin hd, rfl, rfl, rfl, rfl, rfl, rfl⟩

/-- Settles O15: BANK is a field of every command's word, and the bank test comes before every other. -/
theorem bankOutOfRangeIsBadArg : Obligations.BankOutOfRangeIsBadArg := by
  refine ⟨fun w c h => ?_, fun c s h => ⟨_, exec_of_bank_out_of_range h, rfl, rfl, sameOutside_finish s _⟩⟩
  obtain ⟨-, -, -, hbank, -⟩ := decode_ok_iff.1 h
  exact hbank.symm

/-- Settles O16: a command with an ENTRY takes it from its word, and finds one out of range before it does anything else;
a BANK out of range, tested earlier, gives the same answer. -/
theorem entryOutOfRangeIsBadArg : Obligations.EntryOutOfRangeIsBadArg :=
  ⟨fun _ _ _ h he => entryField_of_decode h he,
    fun _ s _ he h => ⟨_, exec_of_entry_out_of_range he h, rfl, rfl, sameOutside_finish s _⟩⟩

/-- Settles O23: the region passes the checks of CFG_NAPOT, and `napotWord` of it is its start over 4 with the low `k` bits
set. -/
theorem cfgNapotWritesItsEntry : Obligations.CfgNapotWritesItsEntry := by
  intro s b i perm k hs hcause hlen hal hg hbelow
  rw [badArgCause_iff, not_or, Nat.not_le] at hcause
  rw [belowTor_iff, Bool.not_eq_true] at hbelow
  obtain ⟨hb, hcommon⟩ := hcause
  have hpass : firstFailure (cfgNapotChecks s.params (s.bank b) i perm s.portStart s.portEnd) = none :=
    (cfgNapot_passes ..).2 ⟨hcommon, napotRegion_of_pow hlen hal hg, hbelow⟩
  have hi : i < (s.bank b).entries.length :=
    (entry_lt_of_passes (c := .cfgNapot b i perm) rfl rfl hpass).trans_eq (hs.bank_length hb).symm
  have hbank := State.bank_setBank_self s b (cfgNapotBank (s.bank b) i perm s.portStart s.portEnd) (hs.bank_lt hb)
  obtain ⟨hcfg, haddr, -⟩ := Bank.of_entry (Bank.entry_setEntry_self (s.bank b) i
    { cfg := cfgByte perm .napot, addr := napotWord s.portStart s.portEnd } hi)
  refine ⟨_, exec_configure_of_passes (c := .cfgNapot b i perm) rfl hb hpass, rfl, ?_, ?_, fun j hj => ?_,
    sameOtherBanks_setBank .., SameOutside.refl s⟩
  · exact (congrArg (Bank.cfg · i) hbank).trans hcfg
  · exact (congrArg BitVec.toNat ((congrArg (Bank.addr · i) hbank).trans haddr)).trans (napotWord_toNat hlen hal)
  · exact (congrArg (Bank.entry · j) hbank).trans (Bank.entry_setEntry_ne _ _ _ _ (by simpa using hj))

/-- Settles O35: the bounds that the word's `k` trailing ones give are below `2^32`, and DECODE answers with them. -/
theorem decodeNapotEntry : Obligations.DecodeNapotEntry := by
  intro s b i k m hb hi hbad hm ha hend
  have hd := decodeEntry_napot hi ((cfgValid_iff _).2 hbad) hm ha hend
  have hstart : m * 2 ^ (k + 3) < 2 ^ 32 := lt_of_le_of_lt (Nat.mul_le_mul_right _ m.le_succ) hend
  refine ⟨_, (exec_decode b i s).trans (congrArg _ (decoded_of_ok hb hd)), rfl, ?_, ?_, permBitsOf_permOf _, rfl,
    sameOutside_finishDecode ..⟩
  · exact (BitVec.toNat_ofNat ..).trans (Nat.mod_eq_of_lt hstart)
  · exact (BitVec.toNat_ofNat ..).trans (Nat.mod_eq_of_lt hend)

/-- Settles O24: the fields of a byte made from a permission and a mode, and what `permOf` and `cfgValid` read of any byte. -/
theorem cfgByteHoldsPermissionAndMode : Obligations.CfgByteHoldsPermissionAndMode := by
  refine ⟨⟨rfl, rfl, rfl, rfl⟩, fun perm m => ?_, fun c => ⟨permBitsOf_permOf c, cfgValid_iff c⟩⟩
  obtain ⟨hmode, hzero⟩ := extractLsb'_cfgByte perm m
  exact ⟨hmode, hzero, permBitsOf_cfgByte perm m, cfgMode_cfgByte perm m⟩

end Sys2Proof.Machine
end

section
/-! SUPPORT. The answers of the configure commands (40_encoder.md): the grade in which their checks stand, the causes of each
RESULT, and what CFG_OFF, CFG_TOR and CFG_NA4 write when they complete. -/

namespace Sys2Proof.Machine

/-! ### Graded checks -/

/-- Checks of one code in front of others: that code, or what the others find. -/
theorem firstFailure_map_append (bs : List Bool) (f : Failure) (cs : List Check) :
    firstFailure (bs.map (·, f) ++ cs) = if bs.any id then some f else firstFailure cs := by
  induction bs with
  | nil => rfl
  | cons bad bs ih =>
    cases bad with
    | false => simpa [firstFailure] using ih
    | true => rfl

/-- Checks in the grade that every configure command gives them: arguments, then the region, then conflicts (R149).
The list that each command makes, behind its bank check, is one of these by computation. -/
def gradedChecks (args region conflict : List Bool) : List Check :=
  args.map (·, .badArg) ++ (region.map (·, .badRegion) ++ conflict.map (·, .conflict))

theorem firstFailure_gradedChecks (args region conflict : List Bool) :
    firstFailure (gradedChecks args region conflict) =
      if args.any id then some .badArg
      else if region.any id then some .badRegion
      else if conflict.any id then some .conflict
      else none := by
  rw [gradedChecks, firstFailure_map_append, firstFailure_map_append, ← List.append_nil (conflict.map _),
    firstFailure_map_append, firstFailure]

/-- RESULT `r` is graded by the causes of BadArg, BadRegion and Conflict: each is answered exactly on its cause once the
ones before it are excluded, and Ok is left (R146, R149). -/
structure Graded (arg region conflict : Prop) (r : BitVec 3) : Prop where
  badArg : r = 1 ↔ arg
  badRegion : ¬ arg → (r = 2 ↔ region)
  conflict : r ≠ 1 → r ≠ 2 → (r = 3 ↔ conflict)
  ok : r ≠ 1 → r ≠ 2 → r ≠ 3 → r = 0

/-- A command that ends with graded checks has the RESULT that the causes grade. -/
theorem graded_finishWrite {args region conflict : List Bool} {A R C : Prop} (hA : args.any id = true ↔ A)
    (hR : region.any id = true ↔ R) (hC : conflict.any id = true ↔ C) (s : State) (b : Nat) (bk : Bank) :
    Graded A R C (s.finishWrite b (gradedChecks args region conflict) bk).result := by
  rw [finishWrite_result, firstFailure_gradedChecks, ← hA, ← hR, ← hC]
  by_cases ha : args.any id = true
  · constructor <;> simp [ha]
  by_cases hr : region.any id = true
  · constructor <;> simp [ha, hr]
  by_cases hc : conflict.any id = true
  · constructor <;> simp [ha, hr, hc]
  · constructor <;> simp [ha, hr, hc]

/-! ### The causes of each RESULT -/

/-- The BadArg checks of a configure command, that of the bank first (R75, R84, R85). -/
def argChecks (s : State) (b i : Nat) (perm : Nibble) : List Bool :=
  [decide (s.params.numBanks ≤ b), decide (s.params.N ≤ i), decide (s.portEnd.toNat < s.portStart.toNat),
    permReserved perm]

theorem any_argChecks (s : State) (b i : Nat) (perm : Nibble) :
    (argChecks s b i perm).any id = true ↔ BadArgCause s b i perm := by
  simp [argChecks, badArgCause_iff, CommonBad]

/-- One of the region checks of CFG_TOR fails exactly off the grain (R92). -/
theorem any_torChecks (p : Params) (s e : Word) :
    [torMisaligned p s e].any id = true ↔ s.toNat % grain p ≠ 0 ∨ e.toNat % grain p ≠ 0 := by
  simp [torMisaligned]

/-- One of the region checks of CFG_NA4 fails exactly here (R97, R98). -/
theorem any_na4Checks (p : Params) (s e : Word) :
    [decide (p.G ≠ 0), decide (regionLen s e ≠ 4), decide (s.toNat % 4 ≠ 0)].any id = true ↔
      p.G ≠ 0 ∨ regionLen s e ≠ 4 ∨ s.toNat % 4 ≠ 0 := by
  simp

/-- One of the region checks of CFG_NAPOT fails exactly on a region that no NAPOT entry holds (R101, R102). -/
theorem any_napotChecks (p : Params) (s e : Word) :
    [napotBadSize s e, napotMisaligned s e, napotBelowGrain p s e].any id = true ↔ ¬ NapotRegion p s e := by
  rw [← napot_checks_iff]
  cases napotBadSize s e <;> cases napotMisaligned s e <;> simp

section
variable {s t : State} {b i : Nat} {perm : Nibble}

/-- What CFG_OFF answers (R87, R107). -/
theorem cfgOff_graded (ht : exec (.cfgOff b i perm) s = .next t) :
    Graded (BadArgCause s b i perm) (s.portStart ≠ s.portEnd) (ChangesTorBase s b i (s.portStart >>> 2)) t.result := by
  cases ht
  exact graded_finishWrite (region := [decide (s.portStart ≠ s.portEnd)])
    (conflict := [baseHolderConflict s.params (s.bank b) i (addrWord s.portStart)])
    (any_argChecks s b i perm) (by simp) (by simp [changesTorBase_iff, addrWord]) ..

/-- What CFG_TOR answers (R90 to R95, R107). -/
theorem cfgTor_graded (ht : exec (.cfgTor b i perm) s = .next t) :
    Graded (BadArgCause s b i perm)
      (s.portStart.toNat % 2 ^ (2 + s.params.G) ≠ 0 ∨ s.portEnd.toNat % 2 ^ (2 + s.params.G) ≠ 0)
      (BaseRefused s b i s.portStart ∨ ChangesTorBase s b i (s.portEnd >>> 2)) t.result := by
  cases ht
  exact graded_finishWrite (conflict := [torChainConflict (s.bank b) i s.portStart,
      baseHolderConflict s.params (s.bank b) i (addrWord s.portEnd)])
    (any_argChecks s b i perm) (any_torChecks s.params s.portStart s.portEnd)
    (by simp [baseRefused_iff, changesTorBase_iff, addrWord]) ..

/-- What CFG_NA4 answers (R97, R98, R109). -/
theorem cfgNa4_graded (ht : exec (.cfgNa4 b i perm) s = .next t) :
    Graded (BadArgCause s b i perm)
      (s.params.G ≠ 0 ∨ s.portEnd.toNat - s.portStart.toNat ≠ 4 ∨ s.portStart.toNat % 4 ≠ 0)
      (BelowTor s b i) t.result := by
  cases ht
  exact graded_finishWrite (conflict := [naSlotConflict s.params (s.bank b) i])
    (any_argChecks s b i perm) (any_na4Checks s.params s.portStart s.portEnd) (by simp [belowTor_iff]) ..

/-- What CFG_NAPOT answers (R100 to R102, R109). -/
theorem cfgNapot_graded (ht : exec (.cfgNapot b i perm) s = .next t) :
    Graded (BadArgCause s b i perm) (¬ NapotRegion s.params s.portStart s.portEnd) (BelowTor s b i) t.result := by
  cases ht
  exact graded_finishWrite (conflict := [naSlotConflict s.params (s.bank b) i])
    (any_argChecks s b i perm) (any_napotChecks s.params s.portStart s.portEnd) (by simp [belowTor_iff]) ..

end

/-- A configure command that does not return Ok changes no bank (R20, R150). -/
theorem configure_banks_of_result_ne_zero {c : Instr} (hc : c.isConfigure = true) {s t : State}
    (ht : exec c s = .next t) (hr : t.result ≠ 0) : t.banks = s.banks := by
  rcases configure_cases hc ht with ⟨-, -, rfl⟩ | ⟨f, rfl⟩
  · exact absurd rfl hr
  · rfl

/-- A configure command that grades its answer returns BadArg exactly on the cause, and then changes no state. -/
theorem configure_badArg_exactly {c : Instr} (hc : c.isConfigure = true) {s t : State} (ht : exec c s = .next t)
    {A R C : Prop} (hg : Graded A R C t.result) :
    (t.result = 1 ↔ A) ∧ (A → t.banks = s.banks ∧ SameOutside s t) := by
  refine ⟨hg.badArg, fun ha => ⟨configure_banks_of_result_ne_zero hc ht ?_, configure_sameOutside hc ht⟩⟩
  rw [hg.badArg.2 ha]
  decide

/-! ### What a command that completes writes -/

/-- A configure command with its indexes in range that passes its checks completes: it answers with the bank it stages, in
which its entry holds the new words, and writes nothing else (R20, R86). -/
theorem configure_completes {c : Instr} (hc : c.isConfigure = true) {s : State} (hs : s.ShapeOk) {i : Nat}
    (hi : c.entry? = some i) (hb : c.bank < s.params.numBanks)
    (hf : firstFailure (confChecks c s.params (s.bank c.bank) s.portStart s.portEnd) = none) :
    ∃ t, exec c s = .next t ∧ t.result = 0 ∧
      t.bank c.bank = confBank c (s.bank c.bank) s.portStart s.portEnd ∧
      (t.bank c.bank).entry i = confEntry c s.portStart s.portEnd ∧
      SameOtherBanks c.bank s t ∧ SameOutside s t := by
  have ht := exec_configure_of_passes hc hb hf
  have hlen : i < (s.bank c.bank).entries.length :=
    (entry_lt_of_passes hc hi hf).trans_eq (hs.bank_length hb).symm
  have hbank := State.bank_setBank_self s c.bank (confBank c (s.bank c.bank) s.portStart s.portEnd) (hs.bank_lt hb)
  exact ⟨_, ht, rfl, hbank, (congrArg (Bank.entry · i) hbank).trans (confBank_entry_self c _ _ _ i hc hi hlen),
    configure_sameOtherBanks hc ht, configure_sameOutside hc ht⟩

/-- A bank in which only entry `i` was set has every other entry as before. -/
theorem sameOtherEntries_of_setEntry {s t : State} {b i : Nat} {e : Entry} (h : t.bank b = (s.bank b).setEntry i e) :
    SameOtherEntries b [i] s t := fun j hj => by
  rw [h]
  exact Bank.entry_setEntry_ne _ _ _ _ (by simpa using hj)

/-- The bank CFG_TOR stages, beside its own entry: the base in an OFF entry right below, and no other change (R94). -/
theorem cfgTorBank_entry_ne (bk : Bank) {i j : Nat} (perm : Nibble) (s e : Word) (hj : j ≠ i) :
    (cfgTorBank bk i perm s e).entry j =
      if j + 1 = i ∧ bk.mode j = .off ∧ j < bk.entries.length then { cfg := bk.cfg j, addr := addrWord s }
      else bk.entry j :=
  (Bank.entry_setEntry_ne _ _ _ _ hj).trans (torBaseBank_entry ..)

/-! ### The obligations -/

/-- Settles O17: the BadArg checks stand first in each configure command, and a command that fails writes no bank. -/
theorem configureBadArgExactly : Obligations.ConfigureBadArgExactly :=
  ⟨fun _ _ _ _ _ ht => configure_badArg_exactly rfl ht (cfgOff_graded ht),
    fun _ _ _ _ _ ht => configure_badArg_exactly rfl ht (cfgTor_graded ht),
    fun _ _ _ _ _ ht => configure_badArg_exactly rfl ht (cfgNa4_graded ht),
    fun _ _ _ _ _ ht => configure_badArg_exactly rfl ht (cfgNapot_graded ht)⟩

/-- Settles O18: the region checks of each mode stand right after the BadArg checks. -/
theorem configureBadRegionExactly : Obligations.ConfigureBadRegionExactly :=
  fun _ _ _ _ _ hcause =>
    ⟨fun ht => (cfgOff_graded ht).badRegion hcause, fun ht => (cfgTor_graded ht).badRegion hcause,
      fun ht => (cfgNa4_graded ht).badRegion hcause, fun ht => (cfgNapot_graded ht).badRegion hcause⟩

/-- Settles O19: the conflict checks stand last, and a command they do not stop returns Ok. -/
theorem configureConflictExactly : Obligations.ConfigureConflictExactly :=
  fun _ _ _ _ _ h1 h2 =>
    ⟨fun ht => ⟨(cfgOff_graded ht).conflict h1 h2, (cfgOff_graded ht).ok h1 h2⟩,
      fun ht => ⟨(cfgTor_graded ht).conflict h1 h2, (cfgTor_graded ht).ok h1 h2⟩,
      fun ht => ⟨(cfgNa4_graded ht).conflict h1 h2, (cfgNa4_graded ht).ok h1 h2⟩,
      fun ht => ⟨(cfgNapot_graded ht).conflict h1 h2, (cfgNapot_graded ht).ok h1 h2⟩⟩

/-- Settles O20: the hypotheses are the checks of CFG_OFF, and it stages the bank with its entry set. -/
theorem cfgOffWritesItsEntry : Obligations.CfgOffWritesItsEntry := by
  intro s b i perm hs hcause hregion hbase
  rw [badArgCause_iff, not_or, Nat.not_le] at hcause
  rw [changesTorBase_iff, Bool.not_eq_true] at hbase
  obtain ⟨hb, hcommon⟩ := hcause
  obtain ⟨t, ht, hr, hbank, hentry, hother, hout⟩ := configure_completes (c := .cfgOff b i perm) rfl hs rfl hb
    ((cfgOff_passes ..).2 ⟨hcommon, hregion, hbase⟩)
  exact ⟨t, ht, hr, hentry, sameOtherEntries_of_setEntry hbank, hother, hout⟩

/-- Settles O21: the hypotheses are the checks of CFG_TOR, and beside its entry it stages only the base in an OFF entry
below. -/
theorem cfgTorWritesTopAndBase : Obligations.CfgTorWritesTopAndBase := by
  intro s b i perm hs hcause hstart hend hrefused hbase
  rw [badArgCause_iff, not_or, Nat.not_le] at hcause
  rw [baseRefused_iff, Bool.not_eq_true] at hrefused
  rw [changesTorBase_iff, Bool.not_eq_true] at hbase
  obtain ⟨hb, hcommon⟩ := hcause
  have hi : i < s.params.N := Nat.not_le.1 fun h => hcommon (.inl h)
  obtain ⟨t, ht, hr, hbank, hentry, hother, hout⟩ := configure_completes (c := .cfgTor b i perm) rfl hs rfl hb
    ((cfgTor_passes ..).2 ⟨hcommon, (torMisaligned_eq_false ..).2 ⟨hstart, hend⟩, hrefused, hbase⟩)
  have hne : ∀ j, j ≠ i → (t.bank b).entry j = _ := fun j hj =>
    (congrArg (Bank.entry · j) hbank).trans (cfgTorBank_entry_ne (s.bank b) perm s.portStart s.portEnd hj)
  refine ⟨t, ht, hr, hentry, fun hpos hoff => ?_, fun hpos hoff => ?_, fun j hj => ?_, hother, hout⟩
  · have hlen : i - 1 < (s.bank b).entries.length := by
      rw [hs.bank_length hb]
      omega
    exact (hne _ (by omega)).trans (if_pos ⟨by omega, hoff, hlen⟩)
  · exact (hne _ (by omega)).trans (if_neg fun h => hoff h.2.1)
  · simp only [List.mem_cons, List.not_mem_nil, or_false, not_or] at hj
    obtain ⟨hself, hbelow⟩ := hj
    exact (hne j hself).trans (if_neg fun h => hbelow (by omega))

/-- Settles O22: the hypotheses are the checks of CFG_NA4, and it stages the bank with its entry set. -/
theorem cfgNa4WritesItsEntry : Obligations.CfgNa4WritesItsEntry := by
  intro s b i perm hs hcause hG hend halign hbelow
  rw [badArgCause_iff, not_or, Nat.not_le] at hcause
  rw [belowTor_iff, Bool.not_eq_true] at hbelow
  obtain ⟨hb, hcommon⟩ := hcause
  have hlen : regionLen s.portStart s.portEnd = 4 := by rw [regionLen, hend, Nat.add_sub_cancel_left]
  obtain ⟨t, ht, hr, hbank, hentry, hother, hout⟩ := configure_completes (c := .cfgNa4 b i perm) rfl hs rfl hb
    ((cfgNa4_passes ..).2 ⟨hcommon, hG, hlen, halign, hbelow⟩)
  exact ⟨t, ht, hr, hentry, sameOtherEntries_of_setEntry hbank, hother, hout⟩

end Sys2Proof.Machine
end

section
/-! SUPPORT. What the conflict checks keep (41_checker.md): the TOR chain and the bases of TOR entries under the configure
commands, what their answer depends on, and the decoded regions they leave alone. -/

namespace Sys2Proof.Machine

/-! ### The bank a configure command leaves -/

/-- What holds of a bank holds of it after a configure command that, when it passes its checks on that bank, stages a bank
with the property. -/
theorem configure_keeps_bank {P : Bank → Prop} {c : Instr} (hc : c.isConfigure = true) {s t : State}
    (ht : exec c s = .next t) (b : Nat) (hold : P (s.bank b))
    (hstaged : c.bank = b → firstFailure (confChecks c s.params (s.bank b) s.portStart s.portEnd) = none →
      P (confBank c (s.bank b) s.portStart s.portEnd)) : P (t.bank b) := by
  rcases configure_cases hc ht with ⟨-, hf, rfl⟩ | ⟨f, rfl⟩
  · refine State.bank_setBank_of s c.bank b _ hold ?_
    rintro rfl
    exact hstaged rfl hf
  · exact hold

/-- The checks of a configure command, that of the bank first (R75, R149). -/
def allChecks (c : Instr) (p : Params) (bk : Bank) (s e : Word) : List Check :=
  bankCheck p c.bank :: confChecks c p bk s e

/-- The answer of a configure command and the bank it leaves, from its bank, its operands and the parameters (R84, R105). -/
theorem configure_answer {c : Instr} (hc : c.isConfigure = true) {s t : State} (hs : s.ShapeOk) (ht : exec c s = .next t) :
    t.result = resultBits (firstFailure (allChecks c s.params (s.bank c.bank) s.portStart s.portEnd)) ∧
      t.bank c.bank = if firstFailure (allChecks c s.params (s.bank c.bank) s.portStart s.portEnd) = none then
        confBank c (s.bank c.bank) s.portStart s.portEnd else s.bank c.bank := by
  rw [exec_configure c hc] at ht
  cases ht
  refine ⟨finishWrite_result .., ?_⟩
  rcases finishWrite_cases s c.bank (allChecks c s.params (s.bank c.bank) s.portStart s.portEnd)
    (confBank c (s.bank c.bank) s.portStart s.portEnd) with ⟨hpass, heq⟩ | ⟨f, hfail, heq⟩
  · have hb : c.bank < s.params.numBanks := by
      by_contra hb
      rw [allChecks, firstFailure_bankCheck, if_pos (Nat.not_lt.1 hb)] at hpass
      cases hpass
    rw [if_pos hpass]
    exact (congrArg (State.bank · c.bank) heq).trans (State.bank_setBank_self _ _ _ (hs.bank_lt hb))
  · rw [hfail, if_neg nofun]
    exact (congrArg (State.bank · c.bank) heq).trans (State.bank_finish ..)

/-! ### The TOR chain -/

/-- A TOR entry is an entry of the bank: past its end every entry reads as OFF (log 11). -/
theorem Bank.lt_length_of_mode_tor {bk : Bank} {j : Nat} (h : bk.mode j = .tor) : j < bk.entries.length := by
  by_contra hj
  rw [Bank.mode, Bank.entry_of_length_le bk j (Nat.not_lt.1 hj)] at h
  exact absurd h (by decide)

/-- The configure command that makes a TOR entry is CFG_TOR. -/
theorem eq_cfgTor_of_confEntry_mode {c : Instr} {s e : Word} {i : Nat} (hc : c.isConfigure = true)
    (hi : c.entry? = some i) (hm : (confEntry c s e).mode = .tor) : ∃ b perm, c = .cfgTor b i perm := by
  cases c with
  | cfgOff b j perm => cases (cfgMode_cfgByte perm .off).symm.trans hm
  | cfgTor b j perm => cases hi; exact ⟨b, perm, rfl⟩
  | cfgNa4 b j perm => cases (cfgMode_cfgByte perm .na4).symm.trans hm
  | cfgNapot b j perm => cases (cfgMode_cfgByte perm .napot).symm.trans hm
  | decode b j => cases hc
  | commit b => cases hc
  | read b => cases hc
  | verify b q => cases hc

/-- A configure command that makes a TOR entry and passes its checks found an OFF or TOR entry below (R91, R93, R95). -/
theorem mode_below_of_makes_tor {c : Instr} {p : Params} {bk : Bank} {s e : Word} {j : Nat} (hc : c.isConfigure = true)
    (hf : firstFailure (confChecks c p bk s e) = none) (hi : c.entry? = some j) (hj : 1 ≤ j)
    (hm : (confBank c bk s e).mode j = .tor) : bk.mode (j - 1) = .off ∨ bk.mode (j - 1) = .tor := by
  have hlen := Bank.lt_length_of_mode_tor hm
  rw [confBank_length] at hlen
  rw [Bank.mode, confBank_entry_self c bk s e j hc hi hlen] at hm
  obtain ⟨b, perm, rfl⟩ := eq_cfgTor_of_confEntry_mode hc hi hm
  obtain ⟨-, -, hchain, -⟩ := (cfgTor_passes ..).1 hf
  exact (((torChainConflict_eq_false ..).1 hchain).2 hj).imp_right And.left

/-- A configure command that passes its checks stages a well-formed bank of a well-formed one (R111): the one command that
makes a TOR entry looks at the entry below, and the others at the entry above. -/
theorem wf_confBank {c : Instr} {p : Params} {bk : Bank} {s e : Word} (hc : c.isConfigure = true)
    (hf : firstFailure (confChecks c p bk s e) = none) (hwf : bk.Wf p.N) : (confBank c bk s e).Wf p.N := by
  intro j hj hjN hm
  by_cases hself : c.entry? = some j
  · have hne : c.entry? ≠ some (j - 1) := fun h => by
      have := Option.some.inj (hself.symm.trans h)
      omega
    rw [confBank_mode_ne c bk s e _ hne]
    exact mode_below_of_makes_tor hc hf hself hj hm
  rw [confBank_mode_ne c bk s e j hself] at hm
  by_cases hbelow : c.entry? = some (j - 1)
  · have hlen := Bank.lt_length_of_mode_tor hm
    obtain ⟨k, rfl⟩ := Nat.exists_eq_add_of_le' hj
    exact (confBank_base_of_tor_above hc hbelow (by omega) hf hjN hm).2
  · rw [confBank_mode_ne c bk s e _ hbelow]
    exact hwf j hj hjN hm

/-- A configure command that passes its checks and is not CFG_TOR of a TOR entry stages that entry's base word as it was
(R106). -/
theorem confBank_base_kept {c : Instr} {p : Params} {bk : Bank} {s e : Word} {j : Nat} (hc : c.isConfigure = true)
    (hf : firstFailure (confChecks c p bk s e) = none) (hj : 1 ≤ j) (hjN : j < p.N) (hm : bk.mode j = .tor)
    (hother : ∀ b perm, c ≠ .cfgTor b j perm) : (confBank c bk s e).addr (j - 1) = bk.addr (j - 1) := by
  have hlen := Bank.lt_length_of_mode_tor hm
  obtain ⟨k, rfl⟩ := Nat.exists_eq_add_of_le' hj
  rw [Nat.add_sub_cancel]
  by_cases hbelow : c.entry? = some k
  · exact (confBank_base_of_tor_above hc hbelow (by omega) hf hjN hm).1
  · rcases confBank_addr_ne c bk s e k hbelow with hkept | ⟨⟨b, perm, htor⟩, -, -⟩
    · exact hkept
    · exact absurd htor (hother b perm)

/-! ### The obligations -/

/-- Settles O28: a configure command stages a well-formed bank, and the other commands but READ write no bank. -/
theorem commandsButReadKeepBanksWellFormed : Obligations.CommandsButReadKeepBanksWellFormed := by
  intro c s t b hread ht hwf
  by_cases hc : c.isConfigure = true
  · exact configure_keeps_bank hc ht b hwf fun _ hf => wf_confBank hc hf hwf
  · have hbanks := (commandsWriteOnlyTheirBank c s t ht).2 (Bool.eq_false_iff.2 hc) hread
    rwa [State.bank_congr hbanks b]

/-- Settles O29: the conflict checks keep the word below a TOR entry, but for CFG_TOR of that entry. -/
theorem torBaseIsNotChangedFromOutside : Obligations.TorBaseIsNotChangedFromOutside := by
  intro c s t b j _ hc ht hj hjN hm hother
  refine configure_keeps_bank (P := fun bk => bk.addr (j - 1) = (s.bank b).addr (j - 1)) hc ht b rfl ?_
  rintro rfl hf
  refine confBank_base_kept hc hf hj hjN hm ?_
  rintro b' perm rfl
  exact hother perm rfl

/-- Settles O26: the answer and the bank are functions of the bank, the operands and the parameters. -/
theorem configureSeesOnlyItsBank : Obligations.ConfigureSeesOnlyItsBank := by
  refine forEachConfigure_of fun k hk s s' t t' b i perm hs hs' hparams hstart hend hbank ht ht' => ?_
  obtain ⟨hr, hb⟩ := configure_answer (hk.isConfigure b i perm) hs ht
  obtain ⟨hr', hb'⟩ := configure_answer (hk.isConfigure b i perm) hs' ht'
  rw [hk.bank b i perm] at hr hb hr' hb'
  rw [hparams, hstart, hend, hbank] at hr' hb'
  exact ⟨hr'.trans hr.symm, hb'.trans hb.symm⟩

/-- Settles O41: of an entry the command does not name, DECODE reads what the command leaves alone. -/
theorem decodedRegionOutlivesOtherCommands : Obligations.DecodedRegionOutlivesOtherCommands := by
  intro c s t b i d _ _ hc ht hd hname habove
  obtain ⟨hparams, -⟩ := configure_sameOutside hc ht
  obtain ⟨hiN, -⟩ := (decodeEntry_ok_iff ..).1 hd
  rw [hparams]
  refine configure_keeps_bank (P := fun bk => decodeEntry s.params bk i = .ok d) hc ht b hd fun hb hf => ?_
  refine (decodeEntry_confBank_ne hc hf (hname hb) hiN ?_ (torChainBroken_of_decodeEntry hd)).trans hd
  rintro b' perm rfl hoff
  cases hb
  exact habove perm hoff rfl

end Sys2Proof.Machine
end

section
/-! SUPPORT. The Decoder (42_decoder.md): how DECODE ends on each kind of entry, the bank that every configure command leaves
decodable, and the round trip of a region through a configure command and DECODE. -/

namespace Sys2Proof.Machine

/-! ### The end of DECODE -/

/-- DECODE of an entry with a valid byte and bounds that are u32 values completes with them (R117, R120, R126). -/
theorem decode_completes {s : State} {b i lo up : Nat} (hb : b < s.params.numBanks) (hi : i < s.params.N)
    (hbad : ¬ CfgByteBad ((s.bank b).cfg i)) (hbounds : entryBounds (s.bank b) i = some (lo, up))
    (hlo : lo < 2 ^ 32) (hup : up < 2 ^ 32) :
    ∃ t, exec (.decode b i) s = .next t ∧ t.result = 0 ∧ t.outStart.toNat = lo ∧ t.outEnd.toNat = up ∧
      PermBitsOf t.outPerm ((s.bank b).cfg i) ∧ t.banks = s.banks ∧ SameOutside s t := by
  have hd := (decodeEntry_ok_iff ..).2 ⟨hi, (cfgValid_iff _).2 hbad, lo, up, hbounds, hlo, hup, rfl⟩
  exact ⟨_, (exec_decode b i s).trans (congrArg _ (decoded_of_ok hb hd)), rfl,
    (BitVec.toNat_ofNat ..).trans (Nat.mod_eq_of_lt hlo), (BitVec.toNat_ofNat ..).trans (Nat.mod_eq_of_lt hup),
    permBitsOf_permOf _, rfl, sameOutside_finishDecode ..⟩

/-- DECODE of an entry in range with no valid byte and u32 bounds ends with Error and writes nothing else (R119, R126,
R127). -/
theorem decode_ends_in_error {s : State} {b i : Nat} (hb : b < s.params.numBanks) (hi : i < s.params.N)
    (h : cfgValid ((s.bank b).cfg i) = true → ∀ lo up, entryBounds (s.bank b) i = some (lo, up) → 2 ^ 32 ≤ up) :
    ∃ t, exec (.decode b i) s = .next t ∧ t.result = 5 ∧ t.banks = s.banks ∧ SameOutside s t := by
  refine ⟨_, exec_decode b i s, ?_⟩
  rcases decoded_cases s b i with ⟨hle, -⟩ | ⟨-, ⟨d, hd, -⟩ | ⟨f, hf, e⟩⟩
  · exact absurd hb (Nat.not_lt.2 hle)
  · obtain ⟨-, hv, lo, up, hbounds, -, hup, -⟩ := (decodeEntry_ok_iff ..).1 hd
    exact absurd hup (Nat.not_lt.2 (h hv lo up hbounds))
  · rcases decodeEntry_cases s.params (s.bank b) i with ⟨hN, -⟩ | ⟨-, he, -⟩ | ⟨-, -, lo, up, -, -, -, hok⟩
    · exact absurd hi (Nat.not_lt.2 hN)
    · rw [he] at hf
      cases hf
      rw [e]
      exact ⟨rfl, rfl, sameOutside_finish ..⟩
    · rw [hok] at hf
      cases hf

/-! ### Bounds -/

/-- An intact TOR entry denotes the bytes from the word below up to its own (R122). -/
theorem entryBounds_tor_of_chain {bk : Bank} {i : Nat} (hm : bk.mode i = .tor)
    (hchain : 0 < i → bk.mode (i - 1) = .off ∨ bk.mode (i - 1) = .tor)
    (hle : (torBase bk i).toNat ≤ (bk.addr i).toNat) :
    entryBounds bk i = some (byteAddr (torBase bk i), byteAddr (bk.addr i)) := by
  rw [entryBounds_tor hm, (torChainBroken_eq_false ..).2 hchain, if_neg]
  exact not_or.2 ⟨Bool.false_ne_true, Nat.not_lt.2 (Nat.mul_le_mul_right 4 hle)⟩

/-- The bounds of a TOR entry, when it has any, end at its word, and neither test of R122 and R123 fails. -/
theorem of_entryBounds_tor {bk : Bank} {i lo up : Nat} (hm : bk.mode i = .tor)
    (h : entryBounds bk i = some (lo, up)) :
    torChainBroken bk i = false ∧ (torBase bk i).toNat ≤ (bk.addr i).toNat ∧ up = byteAddr (bk.addr i) := by
  rw [entryBounds_tor hm] at h
  split at h
  · cases h
  · next hgood =>
    rw [not_or, Bool.not_eq_true] at hgood
    obtain ⟨hchain, hle⟩ := hgood
    cases h
    unfold byteAddr at hle
    exact ⟨hchain, by omega, rfl⟩

/-- With 29 or more ones below the zero bit, the low 29 bits are ones. -/
theorem low_ones_of_shape {k m : Nat} (h : 29 ≤ k) : (m * 2 ^ (k + 1) + (2 ^ k - 1)) % 2 ^ 29 = 2 ^ 29 - 1 := by
  obtain ⟨j, rfl⟩ := Nat.exists_eq_add_of_le h
  have hmul : m * 2 ^ (29 + j + 1) = 2 ^ 29 * (m * 2 ^ (j + 1)) := by ring
  have hpow : 2 ^ (29 + j) = 2 ^ 29 * 2 ^ j := by ring
  have hpos : 0 < 2 ^ j := by positivity
  omega

/-- A NAPOT word of the shape of R69 has the end of its region as its upper bound, or no bounds (R125). -/
theorem end_of_entryBounds_napot {bk : Bank} {i k m lo up : Nat} (hm : bk.mode i = .napot)
    (ha : (bk.addr i).toNat = m * 2 ^ (k + 1) + (2 ^ k - 1)) (h : entryBounds bk i = some (lo, up)) :
    up = (m + 1) * 2 ^ (k + 3) := by
  by_cases hk : k ≤ 28
  · rw [entryBounds_napot hm hk ha] at h
    cases h
    exact (Nat.succ_mul ..).symm
  · rw [entryBounds_napot_none hm (by rw [ha]; exact low_ones_of_shape (by omega))] at h
    cases h

/-! ### Banks that decode -/

/-- DECODE accepts an OFF entry exactly when its byte is valid and its word below `2^30` (R119, R121, R126). -/
theorem off_entry_decodes_iff {p : Params} {bk : Bank} {i : Nat} (hm : bk.mode i = .off) :
    (∃ d, decodeEntry p bk i = .ok d) ↔ i < p.N ∧ cfgValid (bk.cfg i) = true ∧ (bk.addr i).toNat < 2 ^ 30 := by
  simp only [decodeEntry_ok_iff, entryBounds_off hm, byteAddr]
  constructor
  · rintro ⟨d, hi, hv, lo, up, hbounds, hlo, -⟩
    cases hbounds
    exact ⟨hi, hv, by omega⟩
  · rintro ⟨hi, hv, ha⟩
    exact ⟨_, hi, hv, _, _, rfl, by omega, by omega, rfl⟩

/-- An entry past the end of the bank decodes as an empty one (log 11). -/
theorem decodeEntry_of_length_le {p : Params} {bk : Bank} {i : Nat} (hi : i < p.N) (h : bk.entries.length ≤ i) :
    decodeEntry p bk i = .ok { start := 0, stop := 0, perm := 0 } := by
  have hempty := Bank.entry_empty p.N i
  refine (decodeEntry_congr ((Bank.entry_of_length_le bk i h).trans hempty.symm) fun hm => ?_).trans
    (decodeEntry_empty hi)
  rw [Bank.mode, hempty] at hm
  exact absurd hm (by decide)

/-- What DECODE reads of the entry that the configure command `c` makes of its operands (R128). -/
def confDecoded (c : Instr) (s e : Word) : Decoded :=
  match c with
  | .cfgOff _ _ perm => { start := s &&& 0xFFFFFFFC, stop := s &&& 0xFFFFFFFC, perm := perm }
  | .cfgTor _ _ perm => { start := s, stop := e, perm := perm }
  | .cfgNa4 _ _ perm => { start := s, stop := e, perm := perm }
  | .cfgNapot _ _ perm => { start := s, stop := e, perm := perm }
  | .decode _ _ => { start := 0, stop := 0, perm := 0 }
  | .commit _ => { start := 0, stop := 0, perm := 0 }
  | .read _ => { start := 0, stop := 0, perm := 0 }
  | .verify _ _ => { start := 0, stop := 0, perm := 0 }

/-- DECODE of the entry a configure command names, in the bank it stages (R128). -/
theorem decodeEntry_confBank_self {c : Instr} {p : Params} {bk : Bank} {s e : Word} {i : Nat}
    (hc : c.isConfigure = true) (hi : c.entry? = some i) (hl : i < bk.entries.length)
    (hf : firstFailure (confChecks c p bk s e) = none) :
    decodeEntry p (confBank c bk s e) i = .ok (confDecoded c s e) := by
  cases c with
  | cfgOff b j perm => cases hi; exact decodeEntry_cfgOffBank hl hf
  | cfgTor b j perm => cases hi; exact decodeEntry_cfgTorBank hl hf
  | cfgNa4 b j perm => cases hi; exact decodeEntry_cfgNa4Bank hl hf
  | cfgNapot b j perm => cases hi; exact decodeEntry_cfgNapotBank hl hf
  | decode b j => cases hc
  | commit b => cases hc
  | read b => cases hc
  | verify b q => cases hc

/-- An OFF entry the command does not name still decodes in the staged bank: its word stays, or becomes the base of the entry
above, which is below `2^30` (R94, R121). -/
theorem off_entry_decodes_confBank {c : Instr} {p : Params} {bk : Bank} {s e : Word} {j : Nat}
    (hj : c.entry? ≠ some j) (hm : bk.mode j = .off) (hd : ∃ d, decodeEntry p bk j = .ok d) :
    ∃ d, decodeEntry p (confBank c bk s e) j = .ok d := by
  obtain ⟨hjN, hv, ha⟩ := (off_entry_decodes_iff hm).1 hd
  refine (off_entry_decodes_iff ((confBank_mode_ne c bk s e j hj).trans hm)).2 ⟨hjN, ?_, ?_⟩
  · rwa [confBank_cfg_ne c bk s e j hj]
  · rcases confBank_addr_ne c bk s e j hj with h | ⟨-, -, h⟩ <;> rw [h]
    · exact ha
    · exact addrWord_lt s

/-- A configure command that passes its checks on a bank that decodes stages a bank that decodes. -/
theorem allDecode_confBank {c : Instr} {p : Params} {bk : Bank} {s e : Word} (hc : c.isConfigure = true)
    (hf : firstFailure (confChecks c p bk s e) = none) (hall : bk.AllDecode p) :
    (confBank c bk s e).AllDecode p := by
  intro j hjN
  by_cases hself : c.entry? = some j
  · by_cases hl : j < bk.entries.length
    · exact ⟨_, decodeEntry_confBank_self hc hself hl hf⟩
    · exact ⟨_, decodeEntry_of_length_le hjN (by rw [confBank_length]; omega)⟩
  by_cases hoff : bk.mode j = .off
  · exact off_entry_decodes_confBank hself hoff (hall j hjN)
  · obtain ⟨d, hd⟩ := hall j hjN
    exact ⟨d, (decodeEntry_confBank_ne hc hf hself hjN (fun _ _ _ => hoff) (torChainBroken_of_decodeEntry hd)).trans hd⟩

theorem configure_keeps_allDecode {c : Instr} (hc : c.isConfigure = true) {s t : State} (ht : exec c s = .next t)
    (b : Nat) (hall : (s.bank b).AllDecode s.params) : (t.bank b).AllDecode s.params :=
  configure_keeps_bank hc ht b hall fun _ hf => allDecode_confBank hc hf hall

/-- Whatever configure commands run, the parameters stay, and a bank that decodes at the start decodes. -/
theorem configureReach_allDecode {s u : State} (h : ConfigureReach s u) {b : Nat} (hall : (s.bank b).AllDecode s.params) :
    u.params = s.params ∧ (u.bank b).AllDecode s.params := by
  induction h with
  | start => exact ⟨rfl, hall⟩
  | more t u c cmd st en _ hc ran ih =>
    obtain ⟨hparams, hbank⟩ := ih
    obtain ⟨hkept, -⟩ := configure_sameOutside hc ran
    refine ⟨hkept.trans hparams, ?_⟩
    rw [← hparams] at hbank ⊢
    exact configure_keeps_allDecode hc ran b hbank

theorem launch_allDecode (p : Params) (c : CsrFile) (r : BitVec 3) (out : Decoded) (ins : List Input) (ds : List Bool)
    {b : Nat} (hb : b < p.numBanks) : ((State.launch p c r out ins ds).bank b).AllDecode p := fun i hi => by
  rw [launch_bank p c r out ins ds b hb]
  exact ⟨_, decodeEntry_empty hi⟩

/-! ### The round trip -/

/-- Entry `i` of bank `b` of a state of the right shape holds the byte `cfg`, and DECODE of it gives `d`. -/
structure HoldsDecoded (s : State) (b i : Nat) (cfg : Byte) (d : Decoded) : Prop where
  shape : s.ShapeOk
  bank_lt : b < s.params.numBanks
  byte : (s.bank b).cfg i = cfg
  decodes : decodeEntry s.params (s.bank b) i = .ok d

/-- What DECODE of an entry gives, DECODE answers. -/
theorem HoldsDecoded.decodesTo {s : State} {b i : Nat} {cfg : Byte} {d : Decoded} (h : HoldsDecoded s b i cfg d) :
    DecodesTo s b i d.perm d.start d.stop :=
  ⟨_, (exec_decode b i s).trans (congrArg _ (decoded_of_ok h.bank_lt h.decodes)), rfl, rfl, rfl, rfl⟩

/-- After a configure command that returned Ok, DECODE of its entry gives its operands back (R128). -/
theorem holdsDecoded_of_configure {c : Instr} (hc : c.isConfigure = true) {i : Nat} (hi : c.entry? = some i) {s t : State}
    (hs : s.ShapeOk) (ht : exec c s = .next t) (hr : t.result = 0) :
    HoldsDecoded t c.bank i (confEntry c s.portStart s.portEnd).cfg (confDecoded c s.portStart s.portEnd) := by
  have hshape := configure_keeps_shape hc hs ht
  obtain ⟨hb, hf, rfl⟩ := configure_ok hc ht hr
  have hl : i < (s.bank c.bank).entries.length := (entry_lt_of_passes hc hi hf).trans_eq (hs.bank_length hb).symm
  have hbank := State.bank_setBank_self s c.bank (confBank c (s.bank c.bank) s.portStart s.portEnd) (hs.bank_lt hb)
  refine ⟨hshape, hb, ?_, ?_⟩
  · exact (congrArg (Bank.cfg · i) hbank).trans (congrArg Entry.cfg (confBank_entry_self c _ _ _ i hc hi hl))
  · exact (congrArg (decodeEntry s.params · i) hbank).trans (decodeEntry_confBank_self hc hi hl hf)

/-- A configure command that does not name an entry keeps its byte. -/
theorem configure_cfg_of_other {c : Instr} (hc : c.isConfigure = true) {s t : State} (ht : exec c s = .next t) {b i : Nat}
    (hother : c.bank = b → c.entry? ≠ some i) : (t.bank b).cfg i = (s.bank b).cfg i :=
  configure_keeps_bank (P := fun bk => bk.cfg i = (s.bank b).cfg i) hc ht b rfl fun hb _ =>
    confBank_cfg_ne c _ _ _ i (hother hb)

/-- Configure commands that do not name an entry keep what it decodes to; for an OFF entry none of them may be CFG_TOR of the
entry above (R94, R128). -/
theorem HoldsDecoded.of_otherConfigures {t u : State} {b i : Nat} {keep : Bool} {cfg : Byte} {d : Decoded}
    (h : HoldsDecoded t b i cfg d) (hkeep : cfgMode cfg = .off → keep = true) (ho : OtherConfigures b i keep t u) :
    HoldsDecoded u b i cfg d := by
  induction ho with
  | start => exact h
  | more t' u c cmd st en _ hc hother habove ran ih =>
    have hshape : (t'.samplePorts cmd st en).ShapeOk := ih.shape.samplePorts cmd st en
    have hbyte := configure_cfg_of_other hc ran hother
    obtain ⟨hparams, -⟩ := configure_sameOutside hc ran
    refine ⟨configure_keeps_shape hc hshape ran, hparams.symm ▸ ih.bank_lt, hbyte.trans ih.byte, ?_⟩
    refine decodedRegionOutlivesOtherCommands c _ u b i d hshape ih.bank_lt hc ran ih.decodes hother fun perm hoff => ?_
    exact habove (hkeep ((congrArg cfgMode ih.byte).symm.trans hoff)) perm

/-- After a configure command that returned Ok, and others that do not name its entry, DECODE of it gives the operands of the
first back (R128). -/
theorem holdsDecoded_after_others {c : Instr} (hc : c.isConfigure = true) {i : Nat} (hi : c.entry? = some i)
    {s t u : State} (hs : s.ShapeOk) (ht : exec c s = .next t) (hr : t.result = 0) {keep : Bool}
    (hkeep : (confEntry c s.portStart s.portEnd).mode = .off → keep = true) (ho : OtherConfigures c.bank i keep t u) :
    HoldsDecoded u c.bank i (confEntry c s.portStart s.portEnd).cfg (confDecoded c s.portStart s.portEnd) :=
  (holdsDecoded_of_configure hc hi hs ht hr).of_otherConfigures hkeep ho

theorem HoldsDecoded.samplePorts {s : State} {b i : Nat} {cfg : Byte} {d : Decoded} (h : HoldsDecoded s b i cfg d)
    (cmd st en : Word) : HoldsDecoded (s.samplePorts cmd st en) b i cfg d :=
  ⟨h.shape.samplePorts cmd st en, h.bank_lt, h.byte, h.decodes⟩

/-- CFG_TOR of the entry above leaves its own start in an OFF entry, where DECODE finds it (R94, R128). -/
theorem HoldsDecoded.of_cfgTor_above {u v : State} {b i : Nat} {perm perm' : Nibble} {d : Decoded}
    (h : HoldsDecoded u b i (cfgByte perm .off) d) (hv : exec (.cfgTor b (i + 1) perm') u = .next v) (hr : v.result = 0) :
    HoldsDecoded v b i (cfgByte perm .off) { start := u.portStart, stop := u.portStart, perm := perm } := by
  obtain ⟨hi, hvalid, -⟩ := (decodeEntry_ok_iff ..).1 h.decodes
  rw [h.byte, cfgValid_cfgByte, Bool.not_eq_true'] at hvalid
  have hoff : (u.bank b).mode i = .off := (congrArg cfgMode h.byte).trans (cfgMode_cfgByte ..)
  have hshape := configure_keeps_shape rfl h.shape hv
  have hbyte : (v.bank b).cfg i = cfgByte perm .off :=
    (configure_cfg_of_other rfl hv fun _ => by simp [Instr.entry?]).trans h.byte
  obtain ⟨hb, hf, rfl⟩ := configure_ok rfl hv hr
  obtain ⟨-, hgrain, -⟩ := (cfgTor_passes ..).1 hf
  have hl : i < (u.bank b).entries.length := hi.trans_eq (h.shape.bank_length hb).symm
  have hbank := State.bank_setBank_self u b (cfgTorBank (u.bank b) (i + 1) perm' u.portStart u.portEnd) (h.shape.bank_lt hb)
  have haddr := (congrArg (Bank.addr · i) hbank).trans (cfgTorBank_addr_below perm' u.portStart u.portEnd hoff hl)
  have hbase : byteAddr (addrWord u.portStart) = u.portStart.toNat :=
    byteAddr_addrWord _ (mod_four_of_mod_grain ((torMisaligned_eq_false ..).1 hgrain).1)
  refine ⟨hshape, hb, hbyte, decodeEntry_of_cfgByte hi hvalid hbyte ?_⟩
  rw [entryBounds_off ((congrArg cfgMode hbyte).trans (cfgMode_cfgByte ..)), State.bank_finish]
  exact congrArg (fun n => some (n, n)) ((congrArg byteAddr haddr).trans hbase)

/-! ### The obligations -/

/-- Settles O30: in the staged bank DECODE accepts the named entry, an OFF entry that takes a base, and every other entry as
before. -/
theorem configureKeepsEveryEntryDecodable : Obligations.ConfigureKeepsEveryEntryDecodable :=
  fun _ _ _ b hc ht hall => configure_keeps_allDecode hc ht b hall

/-- Settles O31, by induction over the commands: the banks of a launch decode, and each command keeps that. -/
theorem configuredBanksAlwaysDecode : Obligations.ConfiguredBanksAlwaysDecode := by
  intro p c r out ins ds s b i hreach hb hi
  obtain ⟨hparams, hall⟩ := configureReach_allDecode hreach (launch_allDecode p c r out ins ds hb)
  obtain ⟨d, hd⟩ := hall i hi
  rw [← hparams] at hd
  have hb' : b < s.params.numBanks := hparams.symm ▸ hb
  exact ⟨_, (exec_decode b i s).trans (congrArg _ (decoded_of_ok hb' hd)), rfl, rfl⟩

/-- Settles O32, by the bounds of an OFF entry. -/
theorem decodeOffEntry : Obligations.DecodeOffEntry := by
  intro s b i hb hi hbad hm ha
  have hlt : byteAddr ((s.bank b).addr i) < 2 ^ 32 := by unfold byteAddr; omega
  obtain ⟨t, ht, hr, hstart, hend, hrest⟩ := decode_completes hb hi hbad (entryBounds_off hm) hlt hlt
  exact ⟨t, ht, hr, hstart.trans (Nat.mul_comm ..), BitVec.eq_of_toNat_eq (hend.trans hstart.symm), hrest⟩

/-- Settles O33, by the bounds of an intact TOR entry. -/
theorem decodeTorEntry : Obligations.DecodeTorEntry := by
  intro s b i base hb hi hbad hm hzero hbelow hle ha
  have hbase : torBase (s.bank b) i = base := by
    unfold torBase
    split
    · next h0 => exact (hzero h0).symm
    · next h0 => exact (hbelow (Nat.pos_of_ne_zero h0)).1.symm
  have hbounds := entryBounds_tor_of_chain hm (fun hpos => (hbelow hpos).2) (hbase.symm ▸ hle)
  rw [hbase] at hbounds
  obtain ⟨t, ht, hr, hstart, hend, hrest⟩ := decode_completes hb hi hbad hbounds
    (by unfold byteAddr; omega) (by unfold byteAddr; omega)
  exact ⟨t, ht, hr, hstart.trans (Nat.mul_comm ..), hend.trans (Nat.mul_comm ..), hrest⟩

/-- Settles O34, by the bounds of an NA4 entry. -/
theorem decodeNa4Entry : Obligations.DecodeNa4Entry := by
  intro s b i hb hi hbad hm ha
  obtain ⟨t, ht, hr, hstart, hend, hrest⟩ := decode_completes hb hi hbad (entryBounds_na4 hm)
    (by unfold byteAddr; omega) (by unfold byteAddr; omega)
  exact ⟨t, ht, hr, hstart.trans (Nat.mul_comm ..), hend.trans (congrArg (· + 4) hstart.symm), hrest⟩

/-- Settles O36: the byte is tested first (R119). -/
theorem decodeRejectsInvalidByte : Obligations.DecodeRejectsInvalidByte :=
  fun _ _ _ hb hi hbad => decode_ends_in_error hb hi fun hv => absurd hbad ((cfgValid_iff _).1 hv)

/-- Settles O37: a TOR entry has bounds only above an OFF or TOR entry and with its top not below its base. -/
theorem decodeRejectsBrokenTorPair : Obligations.DecodeRejectsBrokenTorPair := by
  intro s b i hb hpos hi hm hbroken
  refine decode_ends_in_error hb hi fun _ lo up hbounds => ?_
  obtain ⟨hchain, hle, -⟩ := of_entryBounds_tor hm hbounds
  have hbelow := (torChainBroken_eq_false ..).1 hchain hpos
  rw [torBase, if_neg (Nat.ne_of_gt hpos)] at hle
  rcases hbroken with hna4 | hnapot | hlt
  · simp [hna4] at hbelow
  · simp [hnapot] at hbelow
  · exact absurd hlt (Nat.not_lt.2 hle)

/-- Settles O38: in each mode the upper bound, where there are bounds, is `2^32` or more. -/
theorem decodeRejectsUnrepresentableWord : Obligations.DecodeRejectsUnrepresentableWord := by
  intro s b i hb hi hword
  refine decode_ends_in_error hb hi fun _ lo up hbounds => ?_
  rcases hword with ⟨hoff | htor, ha⟩ | ⟨hna4, ha⟩ | ⟨hnapot, ha⟩ | ⟨hnapot, k, m, ha, hend⟩
  · rw [entryBounds_off hoff] at hbounds
    cases hbounds
    unfold byteAddr
    omega
  · obtain ⟨-, -, rfl⟩ := of_entryBounds_tor htor hbounds
    unfold byteAddr
    omega
  · rw [entryBounds_na4 hna4] at hbounds
    cases hbounds
    unfold byteAddr
    omega
  · rw [entryBounds_napot_none hnapot ha] at hbounds
    cases hbounds
  · exact (end_of_entryBounds_napot hnapot ha hbounds).symm ▸ hend

/-- Settles O39: DECODE ends by writing output ports only, whatever it finds. -/
theorem decodeIsReadOnly : Obligations.DecodeIsReadOnly := by
  intro s t b i ht
  rw [exec_decode] at ht
  cases ht
  rcases decoded_cases s b i with ⟨-, e⟩ | ⟨-, ⟨d, -, e⟩ | ⟨f, -, e⟩⟩ <;> rw [e]
  · exact ⟨rfl, sameOutside_finish ..⟩
  · exact ⟨rfl, sameOutside_finishDecode ..⟩
  · exact ⟨rfl, sameOutside_finish ..⟩

/-- Settles O40: DECODE reads the operands back, commands on other entries keep that, and CFG_TOR of the entry above an OFF
entry replaces its word with its own start. -/
theorem decodeInvertsConfigure : Obligations.DecodeInvertsConfigure := by
  intro s t u b i perm hs hr
  have hmode : ∀ {m : Mode}, m ≠ .off → cfgMode (cfgByte perm m) = .off → false = true := fun hm h =>
    absurd ((cfgMode_cfgByte ..).symm.trans h) hm
  have hoff := fun ht => holdsDecoded_after_others (c := .cfgOff b i perm) (u := u) rfl rfl hs ht hr fun _ => rfl
  refine ⟨fun ht ho => (hoff ht ho).decodesTo,
    fun ht ho => (holdsDecoded_after_others rfl rfl hs ht hr (hmode nofun) ho).decodesTo,
    fun ht ho => (holdsDecoded_after_others rfl rfl hs ht hr (hmode nofun) ho).decodesTo,
    fun ht ho => (holdsDecoded_after_others rfl rfl hs ht hr (hmode nofun) ho).decodesTo,
    fun v cmd st en perm' ht ho hv hrv => ?_⟩
  exact (((hoff ht ho).samplePorts cmd st en).of_cfgTor_above hv hrv).decodesTo

end Sys2Proof.Machine
end

section
/-! SUPPORT. The Register Synchronizer (43_synchronizer.md): COMMIT and READ with a failed access, what VERIFY compares, and
VERIFY after a COMMIT and after a READ. -/

namespace Sys2Proof.Machine

/-! ### The first failed access -/

/-- Among accesses of which one fails, one is the first to fail (R132, R135). -/
theorem first_failed_access {s : State} {n : Nat} (h : SomeAccessFails s n) :
    ∃ k, k < n ∧ (∀ j, j < k → s.draws.getD j false = false) ∧ s.draws.getD k false = true := by
  have hex : ∃ k, s.draws.getD k false = true := h.imp fun _ hk => hk.2
  obtain ⟨m, hm, hfail⟩ := h
  exact ⟨Nat.find hex, (Nat.find_min' hex hfail).trans_lt hm, fun j hj => Bool.eq_false_iff.2 (Nat.find_min hex hj),
    Nat.find_spec hex⟩

/-! ### Commands that return Ok -/

theorem result_ne_zero_of_failure (s : State) (f : Failure) : (s.finish (some f)).result ≠ 0 :=
  fun h => Option.some_ne_none f (resultBits_eq_zero.1 h)

/-- A command that returns Ok names a bank that exists (R75). -/
theorem bank_lt_of_ok {c : Instr} {s t : State} (ht : exec c s = .next t) (hr : t.result = 0) :
    c.bank < s.params.numBanks := by
  by_contra hb
  rw [exec_of_bank_out_of_range (Nat.not_lt.1 hb)] at ht
  cases ht
  exact result_ne_zero_of_failure s _ hr

/-- No access of a COMMIT or a READ that returns Ok fails (R132, R135). -/
theorem no_access_fails_of_ok {s t : State} {b : Nat} (ht : exec (.commit b) s = .next t ∨ exec (.read b) s = .next t)
    (hr : t.result = 0) : ¬ SomeAccessFails s (bankAccesses s.params) := by
  intro hf
  obtain ⟨n, hn, hbefore, hfail⟩ := first_failed_access hf
  have hb : b < s.params.numBanks := ht.elim (bank_lt_of_ok · hr) (bank_lt_of_ok · hr)
  rcases ht with ht | ht
  · rw [exec_commit, committed_fail hb hn hbefore hfail] at ht
    cases ht
    exact result_ne_zero_of_failure _ _ hr
  · rw [exec_read, readInto_fail hb hn hbefore hfail] at ht
    cases ht
    exact result_ne_zero_of_failure _ _ hr

/-! ### What VERIFY compares -/

/-- A bank agrees entry by entry with the words that the registers show exactly when the file shows it (R139). -/
theorem all_entryMatches_iff {p : Params} (h4 : p.N % 4 = 0) (c : CsrFile) (rest : List Word) (bk : Bank) :
    (List.range p.N).all (entryMatches p.N ((bankRegs p).map (view p · c) ++ rest) bk) = true ↔ CsrShows p c bk := by
  rw [List.all_eq_true]
  refine forall_congr' fun i => ?_
  rw [List.mem_range]
  refine forall_congr' fun hi => ?_
  rw [entryMatches, decide_eq_true_iff, entryOfWords_views p (view p · c) rest i hi h4, Entry.mk.injEq]
  exact and_comm

/-- The word of mseccfg is the last one that VERIFY reads (R137, R140). -/
theorem postureMatches_iff (p : Params) (c : CsrFile) (q : Posture) :
    postureMatches p.N ((bankRegs p).map (view p · c) ++ [view p .mseccfg c]) q = true ↔ PostureShows p c q := by
  have hlen : ((bankRegs p).map (view p · c)).length = p.N + p.N / 4 := by rw [List.length_map, bankRegs_length]; rfl
  rw [postureMatches, decide_eq_true_iff, ← hlen, List.getD_append_right _ _ _ _ le_rfl, Nat.sub_self]
  rfl

/-- When none of its reads fails, the words VERIFY compares are what the registers show (R137). -/
theorem verifyReads_ok {s : State} (hok : ¬ SomeAccessFails s (bankAccesses s.params + 1)) :
    s.verifyReads.map (·.getD 0) = (bankRegs s.params).map (view s.params · s.csr) ++ [view s.params .mseccfg s.csr] := by
  have hreads : s.verifyReads = _ :=
    csrReadAll_ok s.params (verifyRegs s.params) s.draws s.csr (by simpa using draws_succeed hok)
  rw [hreads, verifyRegs]
  simp

/-- A read of VERIFY is missing exactly when one of its accesses fails (R138). -/
theorem verifyReads_any_isNone (s : State) :
    s.verifyReads.any (·.isNone) = true ↔ SomeAccessFails s (bankAccesses s.params + 1) := by
  rw [State.verifyReads, csrReadAll_any_isNone, verifyRegs_length]
  rfl

/-- What VERIFY finds when one of its reads fails (R138). -/
theorem verify_finds_error {s : State} (bk : Bank) (q : Posture)
    (hfail : SomeAccessFails s (bankAccesses s.params + 1)) :
    firstFailure (verifyChecks s.params.N s.verifyReads bk q) = some .error := by
  rw [verifyChecks_result, if_pos ((verifyReads_any_isNone s).2 hfail)]

/-- What VERIFY finds when none of its reads fails (R139, R140). -/
theorem verify_compares {s : State} (h4 : s.params.N % 4 = 0) (bk : Bank) (q : Posture)
    (hok : ¬ SomeAccessFails s (bankAccesses s.params + 1)) :
    (CsrShows s.params s.csr bk ∧ PostureShows s.params s.csr q →
      firstFailure (verifyChecks s.params.N s.verifyReads bk q) = none) ∧
    (¬ (CsrShows s.params s.csr bk ∧ PostureShows s.params s.csr q) →
      firstFailure (verifyChecks s.params.N s.verifyReads bk q) = some .mismatch) := by
  rw [verifyChecks_result, if_neg (mt (verifyReads_any_isNone s).1 hok), verifyReads_ok hok,
    ← all_entryMatches_iff h4 s.csr [view s.params .mseccfg s.csr], ← postureMatches_iff]
  exact ⟨fun h => if_pos h, fun h => if_neg h⟩

/-- VERIFY of a bank in range ends with what its checks find (R137, R141). -/
theorem verified_of_lt {s : State} {b : Nat} (q : Posture) (hb : b < s.params.numBanks) :
    s.verified b q = (s.setDraws (s.draws.drop (verifyRegs s.params).length)).finish
      (firstFailure (verifyChecks s.params.N s.verifyReads (s.bank b) q)) := by
  rcases verified_cases s b q with ⟨hle, -⟩ | ⟨-, e⟩
  · exact absurd hb (Nat.not_lt.2 hle)
  · exact e

/-! ### The identity `View` -/

/-- With the identity `View`, what the file shows is what it holds (R49). -/
theorem csrShows_reference {p : Params} (hp : p.backend = .reference) (c : CsrFile) (bk : Bank) :
    CsrShows p c bk ↔ CsrHolds p c bk := by
  simp only [CsrShows, CsrHolds, view_reference p hp]

/-- With the identity `View`, the posture shown is bits 2:0 of mseccfg (R49, R140). -/
theorem postureShows_reference {p : Params} (hp : p.backend = .reference) (c : CsrFile) (q : Posture) :
    PostureShows p c q ↔ c.mseccfg.extractLsb' 0 3 = q := by
  rw [PostureShows, view_reference p hp, csrGet]

/-- Two tables of words of one size are equal when every word read from them is. -/
theorem words_eq_of_getD {ws ws' : List Word} {n : Nat} (hws : ws.length = n) (hws' : ws'.length = n)
    (h : ∀ i, i < n → ws.getD i 0 = ws'.getD i 0) : ws = ws' := by
  subst hws
  refine List.ext_getElem hws'.symm fun i h1 h2 => ?_
  have hi := h i h1
  rwa [List.getD_eq_getElem _ _ h1, List.getD_eq_getElem _ _ h2] at hi

/-- With the identity `View`, a file shows the bank that another file holds exactly when the two agree on every address and
configuration register (R50, R142). -/
theorem csrShows_iff_registers_eq {p : Params} (hp : p.backend = .reference) (h4 : p.N % 4 = 0) {c c' : CsrFile} {bk : Bank}
    (hcfg : c.pmpcfg.length = p.N / 4) (haddr : c.pmpaddr.length = p.N) (hcfg' : c'.pmpcfg.length = p.N / 4)
    (haddr' : c'.pmpaddr.length = p.N) (h' : CsrHolds p c' bk) :
    CsrShows p c bk ↔ c.pmpcfg = c'.pmpcfg ∧ c.pmpaddr = c'.pmpaddr := by
  rw [csrShows_reference hp]
  constructor
  · intro h
    refine ⟨words_eq_of_getD hcfg hcfg' fun j hj => word_eq_of_lanes fun k hk => ?_,
      words_eq_of_getD haddr haddr' fun i hi => (h i hi).1.trans (h' i hi).1.symm⟩
    have hlanes := (h (4 * j + k) (by omega)).2.trans (h' (4 * j + k) (by omega)).2.symm
    rwa [show (4 * j + k) / 4 = j by omega, show (4 * j + k) % 4 = k by omega] at hlanes
  · rintro ⟨heqcfg, heqaddr⟩ i hi
    rw [csrGet, csrGet, heqcfg, heqaddr]
    exact h' i hi

/-! ### The obligations -/

/-- Settles O43: the state COMMIT leaves when a write is the first to fail. -/
theorem commitStopsAtFirstFailedWrite : Obligations.CommitStopsAtFirstFailedWrite :=
  fun s b _ hb hn hbefore hfail =>
    ⟨_, (exec_commit b s).trans (congrArg _ (committed_fail hb hn hbefore hfail)), rfl, rfl, rfl⟩

/-- Settles O46: the state READ leaves at the first access that fails. -/
theorem readFailureLeavesTheBank : Obligations.ReadFailureLeavesTheBank := by
  intro s b hb hf
  obtain ⟨n, hn, hbefore, hfail⟩ := first_failed_access hf
  exact ⟨_, (exec_read b s).trans (congrArg _ (readInto_fail hb hn hbefore hfail)), rfl, rfl, rfl, rfl, rfl⟩

/-- Settles O47: VERIFY ends with what its checks find, and they find a failed read before any difference. -/
theorem verifyAnswersWhatTheCsrsShow : Obligations.VerifyAnswersWhatTheCsrsShow := by
  intro s b q hs hb
  obtain ⟨⟨-, -, h4, -⟩, -⟩ := hs
  refine ⟨_, (exec_verify b q s).trans (congrArg _ (verified_of_lt q hb)), rfl, rfl, rfl, rfl, rfl, rfl, rfl, ?_, ?_⟩
  · intro hfail
    exact congrArg resultBits (verify_finds_error (s.bank b) q hfail)
  · intro hok
    obtain ⟨hsame, hdiff⟩ := verify_compares h4 (s.bank b) q hok
    exact ⟨fun h => congrArg resultBits (hsame h), fun h => congrArg resultBits (hdiff h)⟩

/-- Settles O48: COMMIT leaves a file that holds the bank, so a file shows the bank exactly when its registers are those. -/
theorem verifyCatchesDrift : Obligations.VerifyCatchesDrift := by
  intro s t v b q c ds hs hp ht hr hcfg haddr hds hv
  have hb := bank_lt_of_ok ht hr
  have hst := exec_keeps_shape hs ht
  obtain ⟨t', ht', -, hbanks, -, -, hholds, hparams, -⟩ :=
    commitWritesEveryRegister s b hs hb (no_access_fails_of_ok (.inl ht) hr)
  cases ht.symm.trans ht'
  obtain ⟨v', hv', -, -, -, -, -, -, -, -, hanswer⟩ :=
    verifyAnswersWhatTheCsrsShow (t.setCsr c ds) b q (hst.setCsr ds hcfg haddr) (hparams ▸ hb)
  cases hv.symm.trans hv'
  obtain ⟨hok, hmismatch⟩ := hanswer fun ⟨k, _, hk⟩ => Bool.false_ne_true ((hds k).symm.trans hk)
  have hsame : CsrShows t.params c (t.bank b) ∧ PostureShows t.params c q ↔
      c.pmpcfg = t.csr.pmpcfg ∧ c.pmpaddr = t.csr.pmpaddr ∧ c.mseccfg.extractLsb' 0 3 = q := by
    obtain ⟨⟨-, -, h4, -⟩, -, -, hcfgt, haddrt⟩ := hst
    rw [← hparams] at hp hholds
    rw [← State.bank_congr hbanks] at hholds
    rw [csrShows_iff_registers_eq hp h4 (hcfg.trans hcfgt) (haddr.trans haddrt) hcfgt haddrt (hholds hp),
      postureShows_reference hp, and_assoc]
  rw [← hsame]
  by_cases h : CsrShows t.params c (t.bank b) ∧ PostureShows t.params c q
  · exact ⟨iff_of_true (hok h) h, fun hne => absurd (hok h) hne⟩
  · have hfour := hmismatch h
    exact ⟨iff_of_false (by rw [hfour]; decide) h, fun _ => hfour⟩

/-- Settles O49: READ leaves the bank that the file shows, and the file as it was. -/
theorem verifyAfterReadSucceeds : Obligations.VerifyAfterReadSucceeds := by
  intro s t b hs ht hr hok
  have hb := bank_lt_of_ok ht hr
  have hst := exec_keeps_shape hs ht
  obtain ⟨t', ht', -, hshows, -, -, hcsr, hparams, -⟩ :=
    readLoadsTheWholeBank s b hs hb (no_access_fails_of_ok (.inr ht) hr)
  cases ht.symm.trans ht'
  rw [← hparams, ← hcsr] at hshows ⊢
  rw [← hparams] at hb hok
  obtain ⟨v, hv, hbanks, -, -, -, -, -, -, -, hanswer⟩ := verifyAnswersWhatTheCsrsShow t b _ hst hb
  exact ⟨v, hv, (hanswer hok).1 ⟨hshows, rfl⟩, hbanks⟩

end Sys2Proof.Machine
end

section
/-! SUPPORT. Result codes and failures (60_exceptions.md): every step answers, which command raises which code, and
what a command that fails leaves alone. -/

namespace Sys2Proof.Machine

/-! ### Every command answers -/

/-- Every command ends in a next state: none of the arms faults or refuses (R151). -/
theorem exec_answers (c : Instr) (s : State) : ∃ t, exec c s = .next t := by
  cases c with
  | cfgOff b i perm => exact ⟨_, exec_cfgOff b i perm s⟩
  | cfgTor b i perm => exact ⟨_, exec_cfgTor b i perm s⟩
  | cfgNa4 b i perm => exact ⟨_, exec_cfgNa4 b i perm s⟩
  | cfgNapot b i perm => exact ⟨_, exec_cfgNapot b i perm s⟩
  | decode b i => exact ⟨_, exec_decode b i s⟩
  | commit b => exact ⟨_, exec_commit b s⟩
  | read b => exact ⟨_, exec_read b s⟩
  | verify b q => exact ⟨_, exec_verify b q s⟩

/-! ### Which command raises which code -/

/-- The commands that raise a failure, by the table of R147. -/
def MayRaise (c : Instr) : Failure → Prop
  | .badArg => True
  | .badRegion => c.isConfigure = true
  | .conflict => c.isConfigure = true
  | .mismatch => ∃ b q, c = .verify b q
  | .error => c.isConfigure = false

theorem mayRaise_of_mem_some {c : Instr} {f : Failure} (h : MayRaise c f) : ∀ g ∈ some f, MayRaise c g := by
  intro g hg
  obtain rfl := Option.mem_some.1 hg
  exact h

/-- Checks that hold only codes a command may raise find only such a code. -/
theorem firstFailure_mayRaise {c : Instr} {cs : List Check} (h : ∀ k ∈ cs, MayRaise c k.2) :
    ∀ f ∈ firstFailure cs, MayRaise c f := by
  intro f hf
  obtain ⟨k, hk, rfl⟩ := firstFailure_mem hf
  exact h k hk

/-- The checks of a configure command are of its arguments, of its region and for conflicts (R84, R149). -/
theorem allChecks_mayRaise {c : Instr} (hc : c.isConfigure = true) (p : Params) (bk : Bank) (s e : Word) :
    ∀ k ∈ allChecks c p bk s e, MayRaise c k.2 := by
  cases c with
  | cfgOff b i perm => simp [allChecks, bankCheck, confChecks, cfgOffChecks, cfgCommon, MayRaise, hc]
  | cfgTor b i perm => simp [allChecks, bankCheck, confChecks, cfgTorChecks, cfgCommon, MayRaise, hc]
  | cfgNa4 b i perm => simp [allChecks, bankCheck, confChecks, cfgNa4Checks, cfgCommon, MayRaise, hc]
  | cfgNapot b i perm => simp [allChecks, bankCheck, confChecks, cfgNapotChecks, cfgCommon, MayRaise, hc]
  | decode b i => cases hc
  | commit b => cases hc
  | read b => cases hc
  | verify b q => cases hc

/-- DECODE of an entry fails with BadArg or Error (R118 to R126). -/
theorem decodeEntry_mayRaise {p : Params} {bk : Bank} {i : Nat} {f : Failure} (h : decodeEntry p bk i = .error f)
    (b : Nat) : MayRaise (.decode b i) f := by
  rcases decodeEntry_cases p bk i with ⟨-, e⟩ | ⟨-, e, -⟩ | ⟨-, -, lo, up, -, -, -, e⟩
  · cases e.symm.trans h; trivial
  · cases e.symm.trans h; rfl
  · cases e.symm.trans h

/-- The checks of VERIFY are for failed reads and for mismatches (R138 to R140). -/
theorem verifyChecks_mayRaise (b : Nat) (q : Posture) (n : Nat) (reads : List (Option Word)) (bk : Bank) :
    ∀ k ∈ verifyChecks n reads bk q, MayRaise (.verify b q) k.2 := by
  simp [verifyChecks, MayRaise, Instr.isConfigure]

/-- RESULT reports Ok or a failure that the command may raise (R146, R147). -/
theorem exec_reports {c : Instr} {s t : State} (ht : exec c s = .next t) :
    ∃ r, t.result = resultBits r ∧ ∀ f ∈ r, MayRaise c f := by
  by_cases hc : c.isConfigure = true
  · rw [exec_configure c hc] at ht
    cases ht
    exact ⟨_, finishWrite_result .., firstFailure_mayRaise (allChecks_mayRaise hc _ _ _ _)⟩
  have hbad : ∀ f ∈ some Failure.badArg, MayRaise c f := mayRaise_of_mem_some trivial
  have herr : ∀ f ∈ some Failure.error, MayRaise c f := mayRaise_of_mem_some (Bool.eq_false_iff.2 hc)
  cases c with
  | cfgOff b i perm => exact absurd rfl hc
  | cfgTor b i perm => exact absurd rfl hc
  | cfgNa4 b i perm => exact absurd rfl hc
  | cfgNapot b i perm => exact absurd rfl hc
  | decode b i =>
    rw [exec_decode] at ht
    cases ht
    rcases decoded_cases s b i with ⟨-, e⟩ | ⟨-, ⟨d, -, e⟩ | ⟨f, hf, e⟩⟩ <;> rw [e]
    · exact ⟨_, rfl, hbad⟩
    · exact ⟨none, rfl, nofun⟩
    · exact ⟨_, rfl, mayRaise_of_mem_some (decodeEntry_mayRaise hf b)⟩
  | commit b =>
    rw [exec_commit] at ht
    cases ht
    rcases committed_cases s b with ⟨-, e⟩ | ⟨-, e⟩ <;> rw [e]
    · exact ⟨_, rfl, hbad⟩
    · refine ⟨_, rfl, ?_⟩
      split
      · exact herr
      · nofun
  | read b =>
    rw [exec_read] at ht
    cases ht
    rcases readInto_cases s b with ⟨-, e⟩ | ⟨-, ⟨ws, -, e⟩ | ⟨-, e⟩⟩ <;> rw [e]
    · exact ⟨_, rfl, hbad⟩
    · exact ⟨none, rfl, nofun⟩
    · exact ⟨_, rfl, herr⟩
  | verify b q =>
    rw [exec_verify] at ht
    cases ht
    rcases verified_cases s b q with ⟨-, e⟩ | ⟨-, e⟩ <;> rw [e]
    · exact ⟨_, rfl, hbad⟩
    · exact ⟨_, rfl, firstFailure_mayRaise (verifyChecks_mayRaise b q _ _ _)⟩

/-! ### The obligations -/

/-- Settles O9, by the next input: a command answers and keeps the parameters and the inputs to come, a reserved word is
rejected, and the environment's write and the reset are updates that keep both. -/
theorem everyStepAnswersAndKeepsParams : Obligations.EveryStepAnswersAndKeepsParams := by
  intro s
  cases hin : s.inputs with
  | nil => exact ⟨s, step_of_no_input hin, rfl, hin⟩
  | cons input rest =>
    cases input with
    | command cmd start stop =>
      by_cases hd : ∃ c, decode cmd = .ok c
      · obtain ⟨c, hd⟩ := hd
        obtain ⟨t, ht⟩ := exec_answers c ((s.setInputs rest).samplePorts cmd start stop)
        obtain ⟨hparams, hinputs, -⟩ := commandsKeepPortsAndInputs c _ t ht
        exact ⟨t, (step_of_command hin hd).trans ht, hparams, hinputs⟩
      · exact ⟨_, step_of_rejected hin (not_exists.1 hd), rfl, rfl⟩
    | envWrite r v => exact ⟨_, step_of_envWrite hin, rfl, rfl⟩
    | reset => exact ⟨_, step_of_reset hin, rfl, rfl⟩

/-- Settles O13: each code is reported only by a command that may raise it. -/
theorem whichCommandRaisesWhichCode : Obligations.WhichCommandRaisesWhichCode := by
  intro c s t ht
  obtain ⟨r, hr, hmay⟩ := exec_reports ht
  rw [hr]
  refine ⟨resultBits_lt r, fun h => ?_, fun h => hmay _ (resultBits_eq_four.1 h),
    fun h => hmay _ (resultBits_eq_five.1 h)⟩
  rcases h with h | h
  · exact hmay _ (resultBits_eq_two.1 h)
  · exact hmay _ (resultBits_eq_three.1 h)

/-- Settles O14: the command that writes a bank returns Ok, and the one that writes the CSR file is COMMIT. -/
theorem failureChangesNoBank : Obligations.FailureChangesNoBank := by
  intro c s t ht hr
  rcases exec_writes ht with ⟨ds, f, rfl⟩ | ⟨d, rfl⟩ | ⟨-, ds, bk, rfl⟩ | ⟨b, f, rfl, rfl⟩
  · exact ⟨rfl, fun _ => rfl⟩
  · exact ⟨rfl, fun _ => rfl⟩
  · exact absurd rfl hr
  · exact ⟨rfl, nofun⟩

end Sys2Proof.Machine
end

section
/-! SUPPORT. The boundary between two TOR entries (70_reset_and_hazards.md R168): CFG_TOR, as the grades of its answer show,
moves it neither as the top of the lower entry (41_checker.md R107) nor as the base of the upper (40_encoder.md R93). -/

namespace Sys2Proof.Machine

/-- Only the range test of BadArg reads the index, so a lower entry has no cause that a higher one lacks (R74, R84). -/
theorem BadArgCause.of_le {s : State} {b i j : Nat} {perm : Nibble} (hij : i ≤ j) (h : BadArgCause s b i perm) :
    BadArgCause s b j perm :=
  h.imp_right (Or.imp_left fun hi => hi.trans hij)

/-- CFG_TOR with good arguments and bounds on the grain answers Conflict when the entry below refuses its base or the entry
above holds its top (R91 to R95, R107, R149). -/
theorem cfgTor_conflict {s t : State} {b i : Nat} {perm : Nibble} (ht : exec (.cfgTor b i perm) s = .next t)
    (hcause : ¬ BadArgCause s b i perm) (hstart : s.portStart.toNat % 2 ^ (2 + s.params.G) = 0)
    (hend : s.portEnd.toNat % 2 ^ (2 + s.params.G) = 0)
    (hconf : BaseRefused s b i s.portStart ∨ ChangesTorBase s b i (s.portEnd >>> 2)) : t.result = 3 := by
  have hg := cfgTor_graded ht
  have hne1 : t.result ≠ 1 := mt hg.badArg.1 hcause
  have hne2 : t.result ≠ 2 := mt (hg.badRegion hcause).1 (not_or.2 ⟨not_not.2 hstart, not_not.2 hend⟩)
  exact (hg.conflict hne1 hne2).2 hconf

/-- Below a TOR entry, another word is a change of its base (R107). -/
theorem changesTorBase_below {s : State} {b j : Nat} {a : Word} (hpos : 1 ≤ j) (hj : j < s.params.N)
    (hm : (s.bank b).mode j = .tor) (ha : a ≠ (s.bank b).addr (j - 1)) : ChangesTorBase s b (j - 1) a := by
  rw [ChangesTorBase, Nat.sub_add_cancel hpos]
  exact ⟨hj, hm, ha.symm⟩

/-- Settles O54: the new top is a change of the base that entry `j - 1` holds for `j`, and the new start is a base that the
TOR entry `j - 1` refuses. -/
theorem liveTorBoundaryIsNotMoved : Obligations.LiveTorBoundaryIsNotMoved := by
  intro s t u b j perm hpos hj hbelow hself hcause hstart hend
  constructor
  · intro ht htop
    exact cfgTor_conflict ht (mt (BadArgCause.of_le (Nat.sub_le j 1)) hcause) hstart hend
      (.inr (changesTorBase_below hpos hj hself htop))
  · intro hu hbase
    exact cfgTor_conflict hu hcause hstart hend (.inl (.inr (.inl ⟨hpos, hbelow, hbase.symm⟩)))

end Sys2Proof.Machine
end
